-- ==== Sys2Proof/Word.lean ====
section
/-!
DEFINITION. The types of the values the hardware holds and moves: bytes, instruction words, the fields of an instruction
word, and register values of the width XLEN (spec/00_scope.md R3, spec/10_state.md R11).
-/

namespace Sys2Proof

/-- A byte is 8 bits (R30). -/
abbrev Byte := BitVec 8

/-- An instruction word is 32 bits (R50). -/
abbrev InstrWord := BitVec 32

/-- The 5-bit index of a general register (R11). -/
abbrev RegIndex := BitVec 5

/-- The 12-bit immediate field of ADDI, as the decoder delivers it (R54, R74). -/
abbrev Imm12 := BitVec 12

/-- The two legal values of the parameter XLEN (R3). -/
inductive Xlen where
  | w32
  | w64
deriving DecidableEq, Repr

/-- The register width in bits (R3). -/
def Xlen.bits : Xlen → Nat
  | .w32 => 32
  | .w64 => 64

/-- A register value: XLEN bits (R11). -/
abbrev Word (n : Xlen) : Type := BitVec n.bits

end Sys2Proof
end

