-- ==== Sys2Proof/Syntax.lean ====
section
/-!
DEFINITION. The instruction set: the nine instructions of spec/opcode_table.json (R2, R58), their operation tags and
encoding shapes (R72), and the source lines the spec's assembler syntax writes them as (R62).
-/

namespace Sys2Proof

/-- The nine operation tags of a Decoded Instruction (R72, R73). -/
inductive Op where
  | addi | add | sub | sll | sltu | xor | srl | or | and
deriving DecidableEq, Repr

/-- The two encoding shapes (R52, R53). -/
inductive Shape where
  | rShape
  | iShape
deriving DecidableEq, Repr

/-- The shape each operation is encoded in (R72): ADDI alone is I-shape. -/
def Op.shape : Op → Shape
  | .addi => .iShape
  | .add | .sub | .sll | .sltu | .xor | .srl | .or | .and => .rShape

/-- An instruction: one constructor per row of the opcode table (R58), with the operand fields the Decoded Instruction
keeps (R72): the destination register, then source 1, then source 2 or the raw 12-bit immediate (R74). -/
inductive Instr where
  | addi (rd rs1 : RegIndex) (imm12 : Imm12)
  | add (rd rs1 rs2 : RegIndex)
  | sub (rd rs1 rs2 : RegIndex)
  | sll (rd rs1 rs2 : RegIndex)
  | sltu (rd rs1 rs2 : RegIndex)
  | xor (rd rs1 rs2 : RegIndex)
  | srl (rd rs1 rs2 : RegIndex)
  | or (rd rs1 rs2 : RegIndex)
  | and (rd rs1 rs2 : RegIndex)
deriving DecidableEq, Repr

/-- The operation tag of an instruction (R72). -/
def Instr.op : Instr → Op
  | .addi _ _ _ => .addi
  | .add _ _ _ => .add
  | .sub _ _ _ => .sub
  | .sll _ _ _ => .sll
  | .sltu _ _ _ => .sltu
  | .xor _ _ _ => .xor
  | .srl _ _ _ => .srl
  | .or _ _ _ => .or
  | .and _ _ _ => .and

/-- The destination register of an instruction: every one of the nine has one (R16). -/
def Instr.rd : Instr → RegIndex
  | .addi rd _ _ => rd
  | .add rd _ _ => rd
  | .sub rd _ _ => rd
  | .sll rd _ _ => rd
  | .sltu rd _ _ => rd
  | .xor rd _ _ => rd
  | .srl rd _ _ => rd
  | .or rd _ _ => rd
  | .and rd _ _ => rd

/-- The registers an instruction reads (R16): ADDI reads `x[rs1]` only, the eight others `x[rs1]` and `x[rs2]`. -/
def Instr.sources : Instr → List RegIndex
  | .addi _ rs1 _ => [rs1]
  | .add _ rs1 rs2 => [rs1, rs2]
  | .sub _ rs1 rs2 => [rs1, rs2]
  | .sll _ rs1 rs2 => [rs1, rs2]
  | .sltu _ rs1 rs2 => [rs1, rs2]
  | .xor _ rs1 rs2 => [rs1, rs2]
  | .srl _ rs1 rs2 => [rs1, rs2]
  | .or _ rs1 rs2 => [rs1, rs2]
  | .and _ rs1 rs2 => [rs1, rs2]

/-- The R-shape instruction of a tag, or none for a tag that is not R-shape (R72). -/
def Op.rInstr (rd rs1 rs2 : RegIndex) : Op → Option Instr
  | .addi => none
  | .add => some (.add rd rs1 rs2)
  | .sub => some (.sub rd rs1 rs2)
  | .sll => some (.sll rd rs1 rs2)
  | .sltu => some (.sltu rd rs1 rs2)
  | .xor => some (.xor rd rs1 rs2)
  | .srl => some (.srl rd rs1 rs2)
  | .or => some (.or rd rs1 rs2)
  | .and => some (.and rd rs1 rs2)

/-- The immediate of an `ADDI` source line: a decimal integer, or the 12-bit field written in hexadecimal (R62). -/
inductive SourceImm where
  | decimal (n : Int)
  | field (n : Nat)
deriving DecidableEq, Repr

/-- A line of the spec's assembler syntax, as its parts (R62): `ADDI xd, xs1, imm` or `OP xd, xs1, xs2`. Numbers are what
a writer may write; `SourceLine.wellFormed` says which lines stand for an instruction. -/
inductive SourceLine where
  | addi (xd xs1 : Nat) (imm : SourceImm)
  | reg (op : Op) (xd xs1 xs2 : Nat)
deriving DecidableEq, Repr

/-- How an instruction is written (R62): the operands in the order destination, source 1, source 2 or immediate; the
immediate as the signed decimal number it stands for (R54). -/
def Instr.toSource : Instr → SourceLine
  | .addi rd rs1 imm12 => .addi rd.toNat rs1.toNat (.decimal imm12.toInt)
  | .add rd rs1 rs2 => .reg .add rd.toNat rs1.toNat rs2.toNat
  | .sub rd rs1 rs2 => .reg .sub rd.toNat rs1.toNat rs2.toNat
  | .sll rd rs1 rs2 => .reg .sll rd.toNat rs1.toNat rs2.toNat
  | .sltu rd rs1 rs2 => .reg .sltu rd.toNat rs1.toNat rs2.toNat
  | .xor rd rs1 rs2 => .reg .xor rd.toNat rs1.toNat rs2.toNat
  | .srl rd rs1 rs2 => .reg .srl rd.toNat rs1.toNat rs2.toNat
  | .or rd rs1 rs2 => .reg .or rd.toNat rs1.toNat rs2.toNat
  | .and rd rs1 rs2 => .reg .and rd.toNat rs1.toNat rs2.toNat

end Sys2Proof
end

