-- ==== Sys2Proof/WellFormed.lean ====
section
/-!
DEFINITION. Which source lines stand for an instruction (spec/30_encoding.md R62, R64). The fields of `Instr` are bit
vectors of the fields' own widths, and every value of every field is legal (R77), so every `Instr` is well formed; the
checks are about the numbers a source line is written with.
-/

namespace Sys2Proof

/-- A register is written `x0` .. `x31` (R62, R64). -/
def registerNumberOk (n : Nat) : Bool := n ≤ 31

/-- A decimal immediate is -2048 .. 2047 (R54, R62); a hexadecimal one is the 12-bit field, 0 .. 4095 (R62, R64). -/
def SourceImm.wellFormed : SourceImm → Bool
  | .decimal n => -2048 ≤ n ∧ n ≤ 2047
  | .field n => n ≤ 4095

/-- The register form is written with an R-shape operation only (R62: "OP one of ADD SUB SLL SLTU XOR SRL OR AND"). -/
def registerFormOk (op : Op) : Bool := op.shape = .rShape

/-- A source line stands for an instruction when its shape, its registers and its immediate do (R62). -/
def SourceLine.wellFormed : SourceLine → Bool
  | .addi xd xs1 imm => registerNumberOk xd && registerNumberOk xs1 && imm.wellFormed
  | .reg op xd xs1 xs2 =>
    registerFormOk op && registerNumberOk xd && registerNumberOk xs1 && registerNumberOk xs2

/-- An instruction is well formed when the line it is written as is. Every instruction is (R77):
`Sys2Proof.Laws.WellFormedness`. -/
def Instr.wellFormed (i : Instr) : Bool := i.toSource.wellFormed

end Sys2Proof
end

