-- ==== Sys2Proof/Decode.lean ====
section
/-!
DEFINITION. The Instruction Decoder (spec/40_decoder.md R70 to R77), the opcode table as data (spec/30_encoding.md R58), the
encoder (R64), the assembler of source lines (R62), and the byte order of an instruction word (spec/20_memory.md R33).
-/

namespace Sys2Proof

/-! ### Byte order -/

/-- The little-endian assembly of four bytes, the one at the lowest address first (R33). -/
def assembleWord (b0 b1 b2 b3 : Byte) : InstrWord := b3 ++ b2 ++ b1 ++ b0

/-- The four bytes of a word as the buffer holds them, lowest address first (R33, R50). -/
def wordBytes (word : InstrWord) : List Byte :=
  [word.extractLsb' 0 8, word.extractLsb' 8 8, word.extractLsb' 16 8, word.extractLsb' 24 8]

/-! ### Fields (R51, R71) -/

/-- `word[6:0]` (R51). -/
def opcodeOf (word : InstrWord) : BitVec 7 := word.extractLsb' 0 7
/-- `word[11:7]` (R51). -/
def rdOf (word : InstrWord) : RegIndex := word.extractLsb' 7 5
/-- `word[14:12]` (R51). -/
def funct3Of (word : InstrWord) : BitVec 3 := word.extractLsb' 12 3
/-- `word[19:15]` (R51). -/
def rs1Of (word : InstrWord) : RegIndex := word.extractLsb' 15 5
/-- `word[24:20]` (R51), in an R-shape word. -/
def rs2Of (word : InstrWord) : RegIndex := word.extractLsb' 20 5
/-- `word[31:25]` (R51), in an R-shape word. -/
def funct7Of (word : InstrWord) : BitVec 7 := word.extractLsb' 25 7
/-- `word[31:20]` (R51, R54), in an I-shape word. -/
def imm12Of (word : InstrWord) : Imm12 := word.extractLsb' 20 12

/-! ### The decoder -/

/-- What the decoder answers (R72): an instruction, or the one distinct unknown outcome, which carries no field. -/
inductive Decoded where
  | known (i : Instr)
  | unknown
deriving DecidableEq, Repr

/-- Second level under opcode 0x33, on the pair (funct3, funct7) (R57, R75). -/
def decodeRShape (funct3 : BitVec 3) (funct7 : BitVec 7) (rd rs1 rs2 : RegIndex) : Decoded :=
  match funct3, funct7 with
  | 0x0#3, 0x00#7 => .known (.add rd rs1 rs2)
  | 0x0#3, 0x20#7 => .known (.sub rd rs1 rs2)
  | 0x1#3, 0x00#7 => .known (.sll rd rs1 rs2)
  | 0x3#3, 0x00#7 => .known (.sltu rd rs1 rs2)
  | 0x4#3, 0x00#7 => .known (.xor rd rs1 rs2)
  | 0x5#3, 0x00#7 => .known (.srl rd rs1 rs2)
  | 0x6#3, 0x00#7 => .known (.or rd rs1 rs2)
  | 0x7#3, 0x00#7 => .known (.and rd rs1 rs2)
  | _, _ => .unknown

/-- Second level under opcode 0x13, on funct3 (R56, R75). -/
def decodeIShape (funct3 : BitVec 3) (rd rs1 : RegIndex) (imm12 : Imm12) : Decoded :=
  if funct3 = 0x0#3 then .known (.addi rd rs1 imm12) else .unknown

/-- `Decode(word)` (R75): total, a pure function of the word (R70), codes only, never operands (R77). -/
def decode (word : InstrWord) : Decoded :=
  if opcodeOf word = 0x13#7 then
    decodeIShape (funct3Of word) (rdOf word) (rs1Of word) (imm12Of word)
  else if opcodeOf word = 0x33#7 then
    decodeRShape (funct3Of word) (funct7Of word) (rdOf word) (rs1Of word) (rs2Of word)
  else .unknown

/-- The decoder on bytes: the outcome for the first four bytes and the bytes after them, or none where there is no complete
word to decode (R50; a fragment of 1 to 3 bytes is never decoded, R148). -/
def decodeBytes : List Byte → Option (Decoded × List Byte)
  | b0 :: b1 :: b2 :: b3 :: rest => some (decode (assembleWord b0 b1 b2 b3), rest)
  | _ => none

/-! ### The encoder (R52, R53, R64) -/

/-- `enc_I(rd, rs1, imm12)` (R53, R64). -/
def encodeIShape (rd rs1 : RegIndex) (imm12 : Imm12) : InstrWord :=
  imm12 ++ rs1 ++ 0x0#3 ++ rd ++ 0x13#7

/-- `enc_R(funct3, funct7, rd, rs1, rs2)` (R52, R64). -/
def encodeRShape (funct3 : BitVec 3) (funct7 : BitVec 7) (rd rs1 rs2 : RegIndex) : InstrWord :=
  funct7 ++ rs2 ++ rs1 ++ funct3 ++ rd ++ 0x33#7

/-- The word of an instruction (R57, R64). -/
def encode : Instr → InstrWord
  | .addi rd rs1 imm12 => encodeIShape rd rs1 imm12
  | .add rd rs1 rs2 => encodeRShape 0x0#3 0x00#7 rd rs1 rs2
  | .sub rd rs1 rs2 => encodeRShape 0x0#3 0x20#7 rd rs1 rs2
  | .sll rd rs1 rs2 => encodeRShape 0x1#3 0x00#7 rd rs1 rs2
  | .sltu rd rs1 rs2 => encodeRShape 0x3#3 0x00#7 rd rs1 rs2
  | .xor rd rs1 rs2 => encodeRShape 0x4#3 0x00#7 rd rs1 rs2
  | .srl rd rs1 rs2 => encodeRShape 0x5#3 0x00#7 rd rs1 rs2
  | .or rd rs1 rs2 => encodeRShape 0x6#3 0x00#7 rd rs1 rs2
  | .and rd rs1 rs2 => encodeRShape 0x7#3 0x00#7 rd rs1 rs2

/-! ### The opcode table as data (R58) -/

/-- A row of the opcode table: a word is the row's instruction when `word & mask = match` (R58). -/
structure OpcodeRow where
  op : Op
  mask : InstrWord
  value : InstrWord
deriving DecidableEq, Repr

/-- The nine rows of R58, as printed. -/
def opcodeTable : List OpcodeRow :=
  [⟨.addi, 0x0000707F#32, 0x00000013#32⟩,
   ⟨.add, 0xFE00707F#32, 0x00000033#32⟩,
   ⟨.sub, 0xFE00707F#32, 0x40000033#32⟩,
   ⟨.sll, 0xFE00707F#32, 0x00001033#32⟩,
   ⟨.sltu, 0xFE00707F#32, 0x00003033#32⟩,
   ⟨.xor, 0xFE00707F#32, 0x00004033#32⟩,
   ⟨.srl, 0xFE00707F#32, 0x00005033#32⟩,
   ⟨.or, 0xFE00707F#32, 0x00006033#32⟩,
   ⟨.and, 0xFE00707F#32, 0x00007033#32⟩]

/-- A word matches a row (R58). -/
def OpcodeRow.matches (row : OpcodeRow) (word : InstrWord) : Bool := word &&& row.mask = row.value

/-! ### Source lines (R62, R64) -/

/-- The 12-bit field of a written immediate: a negative decimal `n` is `n + 4096` (R64). -/
def SourceImm.toField : SourceImm → Imm12
  | .decimal n => BitVec.ofInt 12 n
  | .field n => BitVec.ofNat 12 n

/-- The instruction a source line stands for, or none for a line that is not well formed (R62). -/
def SourceLine.assemble (line : SourceLine) : Option Instr :=
  if line.wellFormed then
    match line with
    | .addi xd xs1 imm => some (.addi (BitVec.ofNat 5 xd) (BitVec.ofNat 5 xs1) imm.toField)
    | .reg op xd xs1 xs2 => op.rInstr (BitVec.ofNat 5 xd) (BitVec.ofNat 5 xs1) (BitVec.ofNat 5 xs2)
  else none

/-! ### Mnemonics, and what stands for pseudo-instructions (R62, R63) -/

/-- How an operation is written, in upper case (R62). -/
def Op.mnemonic : Op → String
  | .addi => "ADDI"
  | .add => "ADD"
  | .sub => "SUB"
  | .sll => "SLL"
  | .sltu => "SLTU"
  | .xor => "XOR"
  | .srl => "SRL"
  | .or => "OR"
  | .and => "AND"

/-- The operation a mnemonic names: one of the nine, and no other mnemonic exists, for there are no pseudo-instructions (R63). -/
def Op.ofMnemonic (mnemonic : String) : Option Op :=
  (opcodeTable.find? fun row => row.op.mnemonic = mnemonic).map fun row => row.op

/-- A register copy, written `ADDI xd, xs, 0` (R63). -/
def SourceLine.copyByAddi (xd xs : Nat) : SourceLine := .addi xd xs (.decimal 0)

/-- A register copy, written `ADD xd, xs, x0` (R63). -/
def SourceLine.copyByAdd (xd xs : Nat) : SourceLine := .reg .add xd xs 0

/-- A small constant, written `ADDI xd, x0, imm` (R63). -/
def SourceLine.smallConstant (xd : Nat) (imm : Int) : SourceLine := .addi xd 0 (.decimal imm)

/-- The usual `nop` of other assemblers, `ADDI x0, x0, 0`: no pseudo-instruction here, and its write to register 0 is an attempt
like any other (R61, R63). -/
def SourceLine.usualNop : SourceLine := .addi 0 0 (.decimal 0)

/-! ### The host's view of the opcode table -/

/-- The instruction the decoder reads from an instruction whose bits are `w`: the word is laid out as the buffer holds it
(R33) and given to the decoder. Every instruction is 32 bits (R50); bits above `nbits` are 0. -/
def decodeTableWord (nbits w : Nat) : Option Instr :=
  match decodeBytes (wordBytes (BitVec.ofNat 32 (w % 2 ^ nbits))) with
  | some (.known i, _) => some i
  | some (.unknown, _) => none
  | none => none

end Sys2Proof
end

