-- ==== Sys2Proof/Config.lean ====
section
/-!
DEFINITION. The parameters the spec leaves to the one who builds a hart, other than the program image (spec/00_scope.md
section 3). Nothing is undefined in this hardware (spec/93_implementation_defined.md part 1), so no constant here is opaque.

`PCLEN` (R6) has no field: the pc is a natural number, as R6 and decision D4 allow (notes/assumptions/5.md).
-/

namespace Sys2Proof

/-- What an instruction whose destination is register 0 does (R5): `fault` is this spec's value (R14), `discard` its
variant (R15). -/
inductive X0WritePolicy where
  | fault
  | discard
deriving DecidableEq, Repr

/-- The parameters of one hart (R3, R5). A hart keeps them for its whole life; State carries them because the step takes
no other argument (notes/assumptions/1.md). -/
structure Config where
  xlen : Xlen
  x0WritePolicy : X0WritePolicy
deriving DecidableEq, Repr

/-- The values the spec recommends where one must be picked: XLEN = 32 (D1), `X0_WRITE_POLICY = fault` (D3).
DESIGN CHOICE: notes/assumptions/2.md and notes/assumptions/4.md. -/
def Config.recommended : Config := ⟨.w32, .fault⟩

end Sys2Proof
end

