-- ==== Sys2Proof/Machine/State.lean ====
section
/-!
DEFINITION. The state of one hart as plain data (spec/10_state.md R10), the Instruction Buffer (spec/20_memory.md R30), the fault
record (R21), the reasons a step can stop, and the state after hart creation (R25, R170).
-/

namespace Sys2Proof.Machine

/-! ### The Register File (R11, R12) -/

/-- The stored registers `X[1] .. X[31]`, in that order; register 0 has no storage (R10, R12). -/
abbrev RegFile (n : Xlen) : Type := Vector (Word n) 31

/-! ### The Instruction Buffer (R30) -/

/-- The Instruction Buffer: `len` bytes at the addresses 0 .. `len` - 1, nothing above (R30, R37). An address below `len`
that `cells` does not list holds the byte 0 (how a buffer is written down, no claim about the hardware: every byte is
given by PROGRAM, notes/assumptions/6.md). -/
structure Memory where
  len : Nat
  cells : List Host.Cell
deriving DecidableEq, Repr

/-- Cells at strictly rising addresses, all in `lo .. hi - 1`, none holding the byte an unlisted address reads as. -/
def cellsCanonical (lo hi : Nat) : List Host.Cell → Bool
  | [] => true
  | (a, b) :: rest => decide (lo ≤ a) && decide (a < hi) && decide (b ≠ 0#8) && cellsCanonical (a + 1) hi rest

/-- The one canonical form of a buffer, so that buffers with the same bytes are the same data. -/
def Memory.wf (m : Memory) : Bool := cellsCanonical 0 m.len m.cells

/-! ### Faults as state (R21, R140) -/

/-- The four fault kinds (R140). -/
inductive FaultKind where
  | boundsAlignment
  | decode
  | reservedRegisterWrite
  | missingProgram
deriving DecidableEq, Repr

/-- The numeric cause codes this spec assigns (R145, D7). -/
def FaultKind.code : FaultKind → Nat
  | .boundsAlignment => 0
  | .decode => 1
  | .reservedRegisterWrite => 2
  | .missingProgram => 3

/-- A fault record (R21): the kind, the address `fpc` of the offending instruction, and the instruction word, which is
present for Decode and ReservedRegisterWrite and for no other kind (R140). -/
inductive FaultRecord where
  | boundsAlignment (fpc : Nat)
  | decode (fpc : Nat) (word : InstrWord)
  | reservedRegisterWrite (fpc : Nat) (word : InstrWord)
  | missingProgram (fpc : Nat)
deriving DecidableEq, Repr

/-- The record's kind (R21). -/
def FaultRecord.kind : FaultRecord → FaultKind
  | .boundsAlignment _ => .boundsAlignment
  | .decode _ _ => .decode
  | .reservedRegisterWrite _ _ => .reservedRegisterWrite
  | .missingProgram _ => .missingProgram

/-- The record's `fpc` (R21). -/
def FaultRecord.fpc : FaultRecord → Nat
  | .boundsAlignment fpc => fpc
  | .decode fpc _ => fpc
  | .reservedRegisterWrite fpc _ => fpc
  | .missingProgram fpc => fpc

/-- The record's `word`, absent where no complete word was fetched (R21). -/
def FaultRecord.word : FaultRecord → Option InstrWord
  | .boundsAlignment _ => none
  | .decode _ word => some word
  | .reservedRegisterWrite _ word => some word
  | .missingProgram _ => none

/-! ### The state -/

/-- The state of a hart (R10): the registers, the program counter and the fault record; with it the parameters of the
hart, which no step changes (R3, R4, R5; notes/assumptions/1.md). The status is not stored (R22). -/
structure State where
  /-- XLEN and X0_WRITE_POLICY (R3, R5): parameters. -/
  config : Config
  /-- `X[1] .. X[31]`, XLEN bits each (R10, R11). -/
  x : RegFile config.xlen
  /-- The program counter, a byte address (R18); a natural number, as R6 allows (notes/assumptions/5.md). -/
  pc : Nat
  /-- PROGRAM (R4): absent, or the Instruction Buffer. -/
  program : Option Memory
  /-- The fault record (R21). -/
  fault : Option FaultRecord
deriving DecidableEq, Repr

/-- The canonical form of the state's memory; a hart without a program has none. -/
def State.memoryWf (s : State) : Bool :=
  match s.program with
  | none => true
  | some m => m.wf

/-! ### How a step can stop -/

/-- Why a step answers a fault instead of a next state. -/
inductive Fault where
  /-- Raised by a step of a hart whose status is Faulted: no step is enabled (R146), the run is over, and the caller gets
  the record (R140, R176). Safe: the hardware stops there too (notes/assumptions/7.md). -/
  | hartFaulted (record : FaultRecord)
deriving DecidableEq, Repr

/-- Why a step answers a refusal. -/
inductive Refusal where
  /-- Raised by an arm of `exec` for an instruction that has no meaning yet; no arm does. Safe: nothing is claimed. -/
  | notModelled (mnemonic : String)
deriving DecidableEq, Repr

/-! ### Hart creation (R170) -/

/-- A fresh hart (R25, R170): pc 0, every register 0, no fault, and the parameters it was created with. -/
def State.fresh (config : Config) (program : Option Memory) : State where
  config := config
  x := Vector.replicate 31 0#_
  pc := 0
  program := program
  fault := none

/-- The machine right after reset (R25, R170). The spec gives the values of pc, registers and fault record; the parameters
are the recommended ones (notes/assumptions/2.md, 4.md) and no program is supplied (notes/assumptions/3.md). -/
def State.reset : State := State.fresh Config.recommended none

end Sys2Proof.Machine
end

