-- ==== Sys2Proof/Machine/Ops.lean ====
section
/-!
DEFINITION. The named operations over the register file, the Instruction Buffer, the program counter and the fault record:
register read and write (spec/10_state.md R13, R14), the fetch primitive (spec/20_memory.md R33, R34), the status (R22), raising
a fault (spec/60_exceptions.md R146), write-back (spec/40_decoder.md R84), and what the host can do (spec/70_reset_and_hazards.md
R176).
-/

namespace Sys2Proof.Machine

/-! ### The Register File unit (R9, R11 to R14) -/

/-- `x[i]` (R13): 0 for index 0, the stored register otherwise. -/
def RegFile.read {n : Xlen} (x : RegFile n) (i : RegIndex) : Word n :=
  if i = 0#5 then 0#_ else x[i.toNat - 1]

/-- The stored effect of `x[i] <- v` (R14): sets `X[i]` for `1 <= i <= 31`; register 0 has no storage to set. -/
def RegFile.write {n : Xlen} (x : RegFile n) (i : RegIndex) (v : Word n) : RegFile n :=
  if i = 0#5 then x else x.set (i.toNat - 1) v

/-- `x[i]` of a state (R13). -/
def State.readReg (s : State) (i : RegIndex) : Word s.config.xlen := s.x.read i

/-- The unsigned integer register `i` holds (R11). -/
def State.regValue (s : State) (i : RegIndex) : Nat := (s.readReg i).toNat

/-- The state with `X[i]` set to `v` and nothing else changed (R14). -/
def State.setReg (s : State) (i : RegIndex) (v : Word s.config.xlen) : State :=
  { s with x := s.x.write i v }

/-! ### The Instruction Buffer (R30, R33, R34) -/

/-- The byte a list of cells holds at an address; 0 where none is listed. -/
def byteOfCells (a : Nat) : List Host.Cell → Byte
  | [] => 0#8
  | (a', b) :: rest => if a = a' then b else byteOfCells a rest

/-- `B[a]` (R33), for an address below LEN. -/
def Memory.byteAt (m : Memory) (a : Nat) : Byte := byteOfCells a m.cells

/-- What an address holds (R30): the byte for addresses 0 .. LEN - 1, nothing above. -/
def Memory.read (m : Memory) (a : Nat) : Option Byte := if a < m.len then some (m.byteAt a) else none

/-- What an address of a hart's address space holds (R30, R37): nothing where there is no program. -/
def State.readByte (s : State) (a : Nat) : Option Byte :=
  match s.program with
  | some m => m.read a
  | none => none

/-- `MemRead(addr, 4)` (R33): four bytes, assembled little-endian. -/
def Memory.readWord (m : Memory) (a : Nat) : InstrWord :=
  assembleWord (m.byteAt a) (m.byteAt (a + 1)) (m.byteAt (a + 2)) (m.byteAt (a + 3))

/-- The fetch precondition (R34): aligned, and the last of the four bytes, `a + 3`, below LEN. -/
def Memory.fetchable (m : Memory) (a : Nat) : Bool := a % 4 = 0 ∧ a + 3 < m.len

/-- A fetch at an address (R122): the word, or none where the precondition fails and nothing is read (R34). -/
def Memory.fetch (m : Memory) (a : Nat) : Option InstrWord :=
  if m.fetchable a then some (m.readWord a) else none

/-- The cells of a byte sequence whose first byte stands at `a`, in canonical form. -/
def cellsOfBytes (a : Nat) : List Byte → List Host.Cell
  | [] => []
  | b :: rest => if b = 0#8 then cellsOfBytes (a + 1) rest else (a, b) :: cellsOfBytes (a + 1) rest

/-- The buffer of a program image: byte `i` of the image is byte `i` of the buffer (R4, R30). -/
def Memory.ofBytes (bytes : List Byte) : Memory := ⟨bytes.length, cellsOfBytes 0 bytes⟩

/-- Cells with the byte at `a` replaced, in canonical form. -/
def placeCell (a : Nat) (b : Byte) : List Host.Cell → List Host.Cell
  | [] => if b = 0#8 then [] else [(a, b)]
  | (a', b') :: rest =>
    if a < a' then if b = 0#8 then (a', b') :: rest else (a, b) :: (a', b') :: rest
    else if a = a' then if b = 0#8 then rest else (a, b) :: rest
    else (a', b') :: placeCell a b rest

/-- A buffer supplied with the byte `b` at `a`, long enough to hold it. No instruction and no unit does this (R31, R35): it is
how the host makes a buffer before creation. -/
def Memory.place (m : Memory) (a : Nat) (b : Byte) : Memory :=
  ⟨max m.len (a + 1), placeCell a b m.cells⟩

/-- A buffer supplied with bytes at `a` and on. -/
def Memory.placeBytes (m : Memory) (a : Nat) : List Byte → Memory
  | [] => m
  | b :: rest => (m.place a b).placeBytes (a + 1) rest

/-! ### Status (R22) -/

/-- The status of a hart (R22). -/
inductive Status where
  | running
  | halted
  | faulted
  | noProgram
deriving DecidableEq, Repr

/-- The status is not stored; it is this function of `fault`, `PROGRAM`, `pc` and `LEN` (R22). -/
def State.status (s : State) : Status :=
  match s.fault, s.program with
  | some _, _ => .faulted
  | none, none => .noProgram
  | none, some m => if s.pc < m.len then .running else .halted

/-! ### The program counter (R19, R123) -/

/-- The fetch of the sequencer at the pc (R122); none where it raises the Bounds/Alignment fault. -/
def State.fetch (s : State) : Option InstrWord :=
  match s.program with
  | some m => m.fetch s.pc
  | none => none

/-- `pc <- pc + 4` (R123). -/
def State.advancePc (s : State) : State := { s with pc := s.pc + 4 }

/-- The address of the instruction being executed: during decode and execute `pc = fpc + 4` (R19). DEDUCED:
notes/assumptions/10.md. -/
def State.fpc (s : State) : Nat := s.pc - 4

/-! ### Taking a fault (R146) -/

/-- `raise F(info)` (R146): sets the fault record and changes nothing else. There is no handler to go to and no return
(R146, R150). -/
def State.raise (s : State) (record : FaultRecord) : State := { s with fault := some record }

/-! ### Write-back (R84) -/

/-- A write attempt to register 0 (R14, R15): under `fault` it raises Reserved-Register-Write with the instruction's address
and word (R143), under `discard` it changes nothing. The word is the executing instruction's own (notes/assumptions/10.md). -/
def State.writeRegZero (s : State) (i : Instr) : State :=
  match s.config.x0WritePolicy with
  | .fault => s.raise (.reservedRegisterWrite s.fpc (encode i))
  | .discard => s

/-- The one write attempt `x[rd] <- r` that ends every instruction (R84). -/
def State.writeBack (s : State) (i : Instr) (r : Word s.config.xlen) : State :=
  if i.rd = 0#5 then s.writeRegZero i else s.setReg i.rd r

/-! ### What the host does to a hart (R176) -/

/-- Hart creation with a program image, or with none (R170). -/
def create (config : Config) (image : Option (List Byte)) : State :=
  State.fresh config (image.map Memory.ofBytes)

/-- Inspection (R17): the 32 values `x[0] .. x[31]`, offered when the status is Halted or Faulted. -/
def inspect (s : State) : Option (List (Word s.config.xlen)) :=
  match s.status with
  | .halted | .faulted => some ((List.range 32).map fun i => s.readReg (BitVec.ofNat 5 i))
  | .running | .noProgram => none

end Sys2Proof.Machine
end

