-- ==== Sys2Proof/Machine/Operands.lean ====
section
/-!
DEFINITION. Operand selection (spec/40_decoder.md R82): every operand form the spec gives.
-/

namespace Sys2Proof.Machine

/-- Operand `a`: always the first source, `x[rs1]` (R82). -/
def State.operandA (s : State) (rs1 : RegIndex) : Word s.config.xlen := s.readReg rs1

/-- Operand `b` of an R-shape instruction: the second source, `x[rs2]` (R82). -/
def State.operandReg (s : State) (rs2 : RegIndex) : Word s.config.xlen := s.readReg rs2

/-- `sext_XLEN(imm12)` (R54). -/
def immx (n : Xlen) (imm12 : Imm12) : Word n := imm12.signExtend n.bits

/-- Operand `b` of ADDI: the immediate, sign-extended to the register width (R54, R82). -/
def State.operandImm (s : State) (imm12 : Imm12) : Word s.config.xlen := immx s.config.xlen imm12

/-- The shift amount: the low 5 bits of the second source, for both register widths (R100). -/
def shiftAmount {n : Xlen} (b : Word n) : Nat := b.toNat % 32

end Sys2Proof.Machine
end

