-- ==== Sys2Proof/Machine/Flags.lean ====
section
/-!
DEFINITION. The hardware has no flags and no condition codes (spec/10_state.md R23): no operation here writes one. The only
condition it computes is SLTU's unsigned comparison, whose outcome goes to a register (spec/43_compare_logic.md R110, R111).
-/

namespace Sys2Proof.Machine

/-- `a <u b` (R111): strictly less, as unsigned integers. -/
def unsignedLess {n : Xlen} (a b : Word n) : Bool := a.toNat < b.toNat

end Sys2Proof.Machine
end

