-- ==== Sys2Proof/Machine/Alu.lean ====
section
/-!
DEFINITION. The ALU function (spec/40_decoder.md R83): a pure function of the operation tag and two XLEN-bit operands.
-/

namespace Sys2Proof.Machine

/-- `(a + b) mod 2^XLEN` (R90, R91, R92). -/
def aluAdd {n : Xlen} (a b : Word n) : Word n := a + b

/-- `(a - b) mod 2^XLEN`, first source minus second (R90, R93; notes/assumptions/11.md). -/
def aluSub {n : Xlen} (a b : Word n) : Word n := a - b

/-- `(a * 2^shamt) mod 2^XLEN` (R101). -/
def aluSll {n : Xlen} (a b : Word n) : Word n := a <<< shiftAmount b

/-- `floor(a / 2^shamt)` (R102). -/
def aluSrl {n : Xlen} (a b : Word n) : Word n := a >>> shiftAmount b

/-- 1 if `a <u b`, else 0 (R111). -/
def aluSltu {n : Xlen} (a b : Word n) : Word n := if unsignedLess a b then 1#_ else 0#_

/-- Bitwise exclusive or (R112). -/
def aluXor {n : Xlen} (a b : Word n) : Word n := a ^^^ b

/-- Bitwise inclusive or (R113). -/
def aluOr {n : Xlen} (a b : Word n) : Word n := a ||| b

/-- Bitwise and (R114). -/
def aluAnd {n : Xlen} (a b : Word n) : Word n := a &&& b

/-- `Alu(op, a, b)` (R83). -/
def alu {n : Xlen} (op : Op) (a b : Word n) : Word n :=
  match op with
  | .addi => aluAdd a b
  | .add => aluAdd a b
  | .sub => aluSub a b
  | .sll => aluSll a b
  | .sltu => aluSltu a b
  | .xor => aluXor a b
  | .srl => aluSrl a b
  | .or => aluOr a b
  | .and => aluAnd a b

end Sys2Proof.Machine
end

