-- ==== Sys2Proof/Machine/AddSub.lean ====
section
/-!
DEFINITION. ADDI, ADD, SUB (spec/41_add_sub_addi.md). Each meaning is the execute phase of its instruction (spec/40_decoder.md
R80): read the sources, compute, write back. The sequencer has already advanced the pc (R123), which no instruction reads or
writes (R18).
-/

namespace Sys2Proof.Machine

/-- ADDI (R91). -/
def execAddi (rd rs1 : RegIndex) (imm12 : Imm12) (s : State) : Host.Outcome State Fault Refusal :=
  .next (s.writeBack (.addi rd rs1 imm12) (alu .addi (s.operandA rs1) (s.operandImm imm12)))

/-- ADD (R92). -/
def execAdd (rd rs1 rs2 : RegIndex) (s : State) : Host.Outcome State Fault Refusal :=
  .next (s.writeBack (.add rd rs1 rs2) (alu .add (s.operandA rs1) (s.operandReg rs2)))

/-- SUB (R93). -/
def execSub (rd rs1 rs2 : RegIndex) (s : State) : Host.Outcome State Fault Refusal :=
  .next (s.writeBack (.sub rd rs1 rs2) (alu .sub (s.operandA rs1) (s.operandReg rs2)))

end Sys2Proof.Machine
end

