-- ==== Sys2Proof/Machine/CompareLogic.lean ====
section
/-!
DEFINITION. SLTU, XOR, OR, AND (spec/43_compare_logic.md). The form of a meaning is that of Sys2Proof/Machine/AddSub.lean.
-/

namespace Sys2Proof.Machine

/-- SLTU (R111). -/
def execSltu (rd rs1 rs2 : RegIndex) (s : State) : Host.Outcome State Fault Refusal :=
  .next (s.writeBack (.sltu rd rs1 rs2) (alu .sltu (s.operandA rs1) (s.operandReg rs2)))

/-- XOR (R112). -/
def execXor (rd rs1 rs2 : RegIndex) (s : State) : Host.Outcome State Fault Refusal :=
  .next (s.writeBack (.xor rd rs1 rs2) (alu .xor (s.operandA rs1) (s.operandReg rs2)))

/-- OR (R113). -/
def execOr (rd rs1 rs2 : RegIndex) (s : State) : Host.Outcome State Fault Refusal :=
  .next (s.writeBack (.or rd rs1 rs2) (alu .or (s.operandA rs1) (s.operandReg rs2)))

/-- AND (R114). -/
def execAnd (rd rs1 rs2 : RegIndex) (s : State) : Host.Outcome State Fault Refusal :=
  .next (s.writeBack (.and rd rs1 rs2) (alu .and (s.operandA rs1) (s.operandReg rs2)))

end Sys2Proof.Machine
end

