-- ==== Sys2Proof/Machine/Shift.lean ====
section
/-!
DEFINITION. SLL, SRL (spec/42_shift.md). The form of a meaning is that of Sys2Proof/Machine/AddSub.lean.
-/

namespace Sys2Proof.Machine

/-- SLL (R101). -/
def execSll (rd rs1 rs2 : RegIndex) (s : State) : Host.Outcome State Fault Refusal :=
  .next (s.writeBack (.sll rd rs1 rs2) (alu .sll (s.operandA rs1) (s.operandReg rs2)))

/-- SRL (R102). -/
def execSrl (rd rs1 rs2 : RegIndex) (s : State) : Host.Outcome State Fault Refusal :=
  .next (s.writeBack (.srl rd rs1 rs2) (alu .srl (s.operandA rs1) (s.operandReg rs2)))

end Sys2Proof.Machine
end

