-- ==== Sys2Proof/Machine/Sequencer.lean ====
section
/-!
DEFINITION. The program-counter sequencer (spec/44_sequencer.md): one pass of the Execution Loop (R121), and what becomes of a
hart that is asked to go on in each status (R125, R129, R146).
-/

namespace Sys2Proof.Machine

/-- Decode and execute the fetched word (R80, R124), in a state whose pc is already advanced: an unknown word raises the
Decode fault with the word and its address (R142). -/
def executeWord (word : InstrWord) (s : State) : Host.Outcome State Fault Refusal :=
  match decode word with
  | .known i => exec i s
  | .unknown => .next (s.raise (.decode s.fpc word))

/-- One step of a Running hart (R121): fetch, or the Bounds/Alignment fault with the pc left where it is (R122, R141); then
the unconditional advance (R123); then decode and execute. -/
def cycle (s : State) : Host.Outcome State Fault Refusal :=
  match s.fetch with
  | none => .next (s.raise (.boundsAlignment s.pc))
  | some word => executeWord word s.advancePc

/-- What one step is in each status (R22). Running: a cycle (R121). NoProgram: the Missing-Program fault `run` raises (R125,
R144; notes/assumptions/9.md). Halted: nothing changes (R129; notes/assumptions/8.md). Faulted: no step is enabled, and the
caller gets the record (R146, R176; notes/assumptions/7.md). -/
def sequencer (s : State) : Host.Outcome State Fault Refusal :=
  match s.fault with
  | some record => .fault (.hartFaulted record)
  | none =>
    match s.status with
    | .running => cycle s
    | .noProgram => .next (s.raise (.missingProgram s.pc))
    | .halted | .faulted => .next s

end Sys2Proof.Machine
end

