-- ==== Sys2Proof/Machine/Step.lean ====
section
/-!
DEFINITION. The step of the machine, and how the host places an instruction where the next step fetches.
-/

namespace Sys2Proof.Machine

/-- One step: one pass of the Execution Loop (R8, R121). -/
def step (s : State) : Host.Outcome State Fault Refusal := sequencer s

/-- `s` with the instruction whose bits are `w` in its Instruction Buffer at the pc, the buffer made long enough to hold it,
and no fault record, so that the next step fetches and runs it. It stands for a load from outside the machine
(notes/assumptions/13.md). -/
def State.withFetchWord (s : State) (nbits w : Nat) : State :=
  { s with
    program := some ((s.program.getD ⟨0, []⟩).placeBytes s.pc (wordBytes (BitVec.ofNat 32 (w % 2 ^ nbits))))
    fault := none }

end Sys2Proof.Machine
end

