-- ==== Sys2Proof/Machine/Run.lean ====
section
/-!
DEFINITION. The run of a hart (spec/44_sequencer.md R125): the host's loop over steps, with the bound on its length that R127
gives.
-/

namespace Sys2Proof.Machine

/-- `while status = Running do Step` (R125), for at most `fuel` steps. -/
def runLoop : Nat → State → Host.Outcome State Fault Refusal
  | 0, s => .next s
  | fuel + 1, s =>
    match s.status with
    | .running =>
      match step s with
      | .next t => runLoop fuel t
      | .fault reason => .fault reason
      | .refused reason => .refused reason
    | .halted | .faulted | .noProgram => .next s

/-- LEN, for a hart that has a program. -/
def State.programLength (s : State) : Nat :=
  match s.program with
  | some m => m.len
  | none => 0

/-- The most steps a run can take: `floor(LEN / 4) + 1` (R127). -/
def State.stepBound (s : State) : Nat := s.programLength / 4 + 1

/-- `run` (R125): the Missing-Program fault for a hart without a program (R144); otherwise steps while the status is Running,
which on a Halted or Faulted hart is none (R129). -/
def run (s : State) : Host.Outcome State Fault Refusal :=
  match s.status with
  | .noProgram => .next (s.raise (.missingProgram s.pc))
  | .running | .halted | .faulted => runLoop s.stepBound s

end Sys2Proof.Machine
end

