-- ==== Sys2Proof/Safety.lean ====
section
/-!
DEFINITION. The terms claims are stated in: the invariant of a hart (spec/10_state.md R20, spec/60_exceptions.md R147), what an
instruction may change (R84), and which program images run to a successful end (spec/70_reset_and_hazards.md R173).
-/

namespace Sys2Proof.Machine

/-- The two states agree on everything but registers, pc and fault record: the parameters no step changes (R3, R4, R5, R31). -/
def SameParameters (s t : State) : Prop := t.config = s.config ∧ t.program = s.program

/-- Every register holds in `t` what it holds in `s`. -/
def SameRegisters (s t : State) : Prop := ∀ r : RegIndex, t.regValue r = s.regValue r

/-- `t` is `s` with register `rd` holding `v` and nothing else changed: no other register, not the pc, no byte of memory (every
address reads as before), not the fault record, no parameter (R14, R84). There are no flags (R23). -/
def WritesOnly (s t : State) (rd : RegIndex) (v : Nat) : Prop :=
  SameParameters s t ∧ (∀ a, t.readByte a = s.readByte a) ∧ t.pc = s.pc ∧ t.fault = s.fault ∧
    t.regValue rd = v ∧ ∀ r : RegIndex, r ≠ rd → t.regValue r = s.regValue r

/-- `t` is `s` with the fault record `record` set and nothing else changed (R146). -/
def RaisesOnly (s t : State) (record : FaultRecord) : Prop :=
  SameParameters s t ∧ (∀ a, t.readByte a = s.readByte a) ∧ t.pc = s.pc ∧ t.fault = some record ∧
    SameRegisters s t

/-- Nothing runs any more: no step answers a next state, and `run` changes nothing (R129, R146). -/
def RunIsOver (t : State) : Prop := (∀ u, step t ≠ .next u) ∧ run t = .next t

/-- What a fault record says of the state it stands in (R21, R147). -/
def FaultRecordFits (s : State) : FaultRecord → Prop
  | .boundsAlignment fpc => s.pc = fpc ∧ ∃ m, s.program = some m ∧ fpc < m.len ∧ m.fetch fpc = none
  | .decode fpc word =>
    s.pc = fpc + 4 ∧ decode word = .unknown ∧ ∃ m, s.program = some m ∧ m.fetch fpc = some word
  | .reservedRegisterWrite fpc word =>
    s.pc = fpc + 4 ∧ s.config.x0WritePolicy = .fault ∧ (∃ i, decode word = .known i ∧ i.rd = 0#5) ∧
      ∃ m, s.program = some m ∧ m.fetch fpc = some word
  | .missingProgram fpc => fpc = 0 ∧ s.program = none

/-- The invariant of a hart: memory in its canonical form, the pc aligned and not beyond the program (R20), a hart without a
program still as created (R144), and a fault record that fits what the fault left behind (R147). -/
structure Inv (s : State) : Prop where
  memory : s.memoryWf = true
  aligned : s.pc % 4 = 0
  bounded : ∀ m, s.program = some m → s.pc ≤ m.len
  noProgram : s.program = none → s.pc = 0 ∧ ∀ r, s.regValue r = 0
  fault : ∀ record, s.fault = some record → FaultRecordFits s record

/-- A run has ended successfully (R130). -/
def EndedSuccessfully (s : State) : Prop := s.status = .halted

/-- The word of an image at byte address `4 * k` (R33). -/
def imageWord (image : List Byte) (k : Nat) : InstrWord :=
  assembleWord (image.getD (4 * k) 0#8) (image.getD (4 * k + 1) 0#8) (image.getD (4 * k + 2) 0#8)
    (image.getD (4 * k + 3) 0#8)

/-- What a program image must satisfy for its run to end Halted (R173 (b), (c), (d)): a length that is a multiple of 4, every word
one of the nine instructions, and, where a write to register 0 faults, none with `rd = 0`. -/
def Runnable (config : Config) (image : List Byte) : Prop :=
  image.length % 4 = 0 ∧
    ∀ k, k < image.length / 4 →
      ∃ i, decode (imageWord image k) = .known i ∧ (config.x0WritePolicy = .fault → i.rd ≠ 0#5)

/-- The same hart with another program counter. -/
def State.withPc (s : State) (pc : Nat) : State := { s with pc := pc }

/-- The same hart created with another `X0_WRITE_POLICY` (R5). -/
def State.withPolicy (s : State) (policy : X0WritePolicy) : State where
  config := ⟨s.config.xlen, policy⟩
  x := s.x
  pc := s.pc
  program := s.program
  fault := s.fault

/-- The execute phases of a list of instructions, one after the other, with no fetch between them. -/
def execAll : List Instr → State → Host.Outcome State Fault Refusal
  | [], s => .next s
  | i :: rest, s =>
    match exec i s with
    | .next t => execAll rest t
    | .fault reason => .fault reason
    | .refused reason => .refused reason

/-- The image of a list of instructions: their words, one after the other (R50, R134). -/
def imageOf : List Instr → List Byte
  | [] => []
  | i :: rest => wordBytes (encode i) ++ imageOf rest

end Sys2Proof.Machine
end

