-- ==== Sys2Proof/Certificates/Slice0/Obligations.lean ====
section
/-!
DEFINITION. The statements for the provers. Each docstring names the rules of spec/ a statement formalises. The parameters XLEN and
X0_WRITE_POLICY are fields of the state (notes/assumptions/1.md), so a statement about every state holds for every value of them.
-/

open Sys2Proof Sys2Proof.Machine

/-! ### Creation and reset -/

/-- 10_state.md section 6: what creation leaves, for all parameters and every image. The fault record and the names of the statuses
are the spec's own decision (D6), and so is that the empty program is Halted from creation (D14, notes/assumptions/16.md). -/
def Obligations.CreatedHartHoldsResetValues : Prop :=
  ∀ (c : Config) (image : Option (List Byte)),
    (create c image).config = c ∧ (create c image).pc = 0 ∧ (create c image).fault = none ∧
      (∀ r, (create c image).regValue r = 0) ∧
      (image = none → (create c image).status = .noProgram) ∧
      ∀ bytes, image = some bytes →
        (0 < bytes.length → (create c image).status = .running) ∧
          (bytes.length = 0 → (create c image).status = .halted)

/-- The model's choice (notes/assumptions/2.md, 3.md, 4.md): State.reset is the creation of a 32-bit hart that faults on a
write to register 0, without a program; its first step raises Missing-Program. -/
def Obligations.ResetStateIsCreationWithoutProgram : Prop :=
  State.reset = create ⟨.w32, .fault⟩ none ∧
    step State.reset = .next (State.reset.raise (.missingProgram 0))

/-- 20_memory.md section 1: byte `i` of the image is byte `i` of the buffer, and addresses at LEN and above hold nothing. -/
def Obligations.BufferHoldsImageBytes : Prop :=
  ∀ (c : Config) (bytes : List Byte),
    ∃ m, (create c (some bytes)).program = some m ∧ m.len = bytes.length ∧ m.wf = true ∧
      (∀ (a : Nat) (h : a < bytes.length), m.read a = some bytes[a]) ∧
      ∀ a, bytes.length ≤ a → m.read a = none

/-! ### Fetch -/

/-- R33: the little-endian assembly of a fetched word, wherever the precondition of R34 holds and nowhere else, and its
example. -/
def Obligations.FetchAssemblesLittleEndian : Prop :=
  (∀ (m : Memory) (a : Nat), a % 4 = 0 → a + 4 ≤ m.len →
    ∃ (b0 b1 b2 b3 : Byte) (w : InstrWord),
      m.read a = some b0 ∧ m.read (a + 1) = some b1 ∧ m.read (a + 2) = some b2 ∧ m.read (a + 3) = some b3 ∧
      m.fetch a = some w ∧
      w.toNat = b0.toNat + 256 * b1.toNat + 65536 * b2.toNat + 16777216 * b3.toNat ∧
      w.extractLsb' 0 8 = b0 ∧ w.extractLsb' 24 8 = b3) ∧
    (∀ (m : Memory) (a : Nat), ¬(a % 4 = 0 ∧ a + 4 ≤ m.len) → m.fetch a = none) ∧
    (Memory.ofBytes [0x93, 0x00, 0x50, 0x00]).fetch 0 = some 0x00500093#32

/-- R34, R141: a Running hart whose fetch is not aligned or not in bounds raises Bounds/Alignment with the pc not advanced and
no register changed, and the run is over; under the invariant this happens exactly at the last, incomplete word, after every
complete word before it has executed. -/
def Obligations.FailedFetchRaisesBoundsAlignment : Prop :=
  (∀ (s : State) (m : Memory), s.fault = none → s.program = some m → s.pc < m.len →
    ¬(s.pc % 4 = 0 ∧ s.pc + 3 ≤ m.len - 1) →
    ∃ t, step s = .next t ∧ RaisesOnly s t (.boundsAlignment s.pc) ∧ RunIsOver t) ∧
  (∀ (s : State) (m : Memory), Inv s → s.fault = none → s.program = some m → s.pc < m.len →
    ((∃ t fpc, step s = .next t ∧ t.fault = some (.boundsAlignment fpc)) ↔
      (m.len % 4 ≠ 0 ∧ s.pc = 4 * (m.len / 4)))) ∧
  (∀ (c : Config) (is : List Instr) (tail : List Byte), (∀ i ∈ is, c.x0WritePolicy = .fault → i.rd ≠ 0#5) →
    1 ≤ tail.length → tail.length ≤ 3 →
    ∃ t u, run (create c (some (imageOf is ++ tail))) = .next t ∧ t.pc = 4 * is.length ∧
      t.fault = some (.boundsAlignment (4 * is.length)) ∧
      execAll is (create c (some (imageOf is ++ tail))) = .next u ∧ SameRegisters u t) ∧
  (∀ (c : Config) (bytes : List Byte), 1 ≤ bytes.length → bytes.length ≤ 3 →
    ∃ t, step (create c (some bytes)) = .next t ∧
      RaisesOnly (create c (some bytes)) t (.boundsAlignment 0))

/-! ### The Register File -/

/-- R13: a read gives 0 for index 0 and the stored register for 1 .. 31, and a register never written gives 0. -/
def Obligations.RegisterReadGivesZeroOrStoredValue : Prop :=
  (∀ s : State, s.readReg 0#5 = 0#_) ∧
    (∀ (s : State) (i : RegIndex) (k : Fin 31), i.toNat = k.val + 1 → s.readReg i = s.x[k]) ∧
    ∀ (c : Config) (image : Option (List Byte)) (i : RegIndex), (create c image).readReg i = 0#_

/-- 10_state.md section 2 (R14): a write to 1 .. 31 is visible to the next read and changes nothing else; under the policy `fault`
(the spec's own decision, D3) a write to 0 is rejected, changes no register and raises Reserved-Register-Write. -/
def Obligations.RegisterWriteIsVisibleAndIsolated : Prop :=
  ∀ (s : State) (i : Instr) (v : Word s.config.xlen),
    (i.rd ≠ 0#5 → WritesOnly s (s.writeBack i v) i.rd v.toNat ∧ (s.writeBack i v).regValue 0#5 = 0) ∧
      (i.rd = 0#5 → s.config.x0WritePolicy = .fault →
        RaisesOnly s (s.writeBack i v) (.reservedRegisterWrite s.fpc (encode i)) ∧
          (s.writeBack i v).regValue 0#5 = 0)

/-- R15: under `discard` a write to register 0 changes nothing and the step goes on; Reserved-Register-Write never occurs; every
other step is the same as under `fault`. -/
def Obligations.DiscardPolicyDropsRegisterZeroWrite : Prop :=
  (∀ (s : State) (i : Instr), s.config.x0WritePolicy = .discard → i.rd = 0#5 → exec i s = .next s) ∧
  (∀ (s t : State), s.config.x0WritePolicy = .discard → step s = .next t →
    ∀ fpc word, t.fault ≠ some (.reservedRegisterWrite fpc word)) ∧
  (∀ (s t : State), step (s.withPolicy .fault) = .next t →
    (∀ fpc word, t.fault ≠ some (.reservedRegisterWrite fpc word)) →
    step (s.withPolicy .discard) = .next (t.withPolicy .discard)) ∧
  (∀ (s t : State) (fpc : Nat) (word : InstrWord), step (s.withPolicy .fault) = .next t →
    t.fault = some (.reservedRegisterWrite fpc word) →
    step (s.withPolicy .discard) = .next (s.advancePc.withPolicy .discard)) ∧
  (∀ (s : State) (reason : Fault),
    step (s.withPolicy .fault) = .fault reason ↔ step (s.withPolicy .discard) = .fault reason)

/-! ### The nine instructions

Each statement has three clauses: the words that stand for the instruction are exactly those that match its row of the opcode
table with its fields; with `rd ≠ 0` it completes, writes its result to `rd` and changes nothing else; with `rd = 0`, under
`fault`, it raises Reserved-Register-Write and changes no register. -/

/-- R91, with the sign extension of R54. -/
def Obligations.AddiWritesSumWithSignExtendedImmediate : Prop :=
  ∀ (s : State) (rd rs1 : RegIndex) (imm12 : Imm12),
    (∀ w, decode w = .known (.addi rd rs1 imm12) ↔
      w &&& 0x0000707F#32 = 0x00000013#32 ∧ rdOf w = rd ∧ rs1Of w = rs1 ∧ imm12Of w = imm12) ∧
    (rd ≠ 0#5 → ∃ t, exec (.addi rd rs1 imm12) s = .next t ∧
      WritesOnly s t rd
        ((s.regValue rs1 +
            (if imm12.toNat < 0x800 then imm12.toNat else imm12.toNat + 2 ^ s.config.xlen.bits - 4096)) %
          2 ^ s.config.xlen.bits)) ∧
    (rd = 0#5 → s.config.x0WritePolicy = .fault → ∃ t, exec (.addi rd rs1 imm12) s = .next t ∧
      RaisesOnly s t (.reservedRegisterWrite s.fpc (encode (.addi rd rs1 imm12))))

/-- R92. -/
def Obligations.AddWritesWrappedSum : Prop :=
  ∀ (s : State) (rd rs1 rs2 : RegIndex),
    (∀ w, decode w = .known (.add rd rs1 rs2) ↔
      w &&& 0xFE00707F#32 = 0x00000033#32 ∧ rdOf w = rd ∧ rs1Of w = rs1 ∧ rs2Of w = rs2) ∧
    (rd ≠ 0#5 → ∃ t, exec (.add rd rs1 rs2) s = .next t ∧
      WritesOnly s t rd ((s.regValue rs1 + s.regValue rs2) % 2 ^ s.config.xlen.bits)) ∧
    (rd = 0#5 → s.config.x0WritePolicy = .fault → ∃ t, exec (.add rd rs1 rs2) s = .next t ∧
      RaisesOnly s t (.reservedRegisterWrite s.fpc (encode (.add rd rs1 rs2))))

/-- 41_add_sub_addi.md section 2: the first source minus the second. The order is the spec's own decision (D10,
notes/assumptions/11.md). -/
def Obligations.SubWritesWrappedDifference : Prop :=
  ∀ (s : State) (rd rs1 rs2 : RegIndex),
    (∀ w, decode w = .known (.sub rd rs1 rs2) ↔
      w &&& 0xFE00707F#32 = 0x40000033#32 ∧ rdOf w = rd ∧ rs1Of w = rs1 ∧ rs2Of w = rs2) ∧
    (rd ≠ 0#5 → ∃ t, exec (.sub rd rs1 rs2) s = .next t ∧
      WritesOnly s t rd
        ((s.regValue rs1 + (2 ^ s.config.xlen.bits - s.regValue rs2)) % 2 ^ s.config.xlen.bits)) ∧
    (rd = 0#5 → s.config.x0WritePolicy = .fault → ∃ t, exec (.sub rd rs1 rs2) s = .next t ∧
      RaisesOnly s t (.reservedRegisterWrite s.fpc (encode (.sub rd rs1 rs2))))

/-- R101. -/
def Obligations.SllWritesShiftedProduct : Prop :=
  ∀ (s : State) (rd rs1 rs2 : RegIndex),
    (∀ w, decode w = .known (.sll rd rs1 rs2) ↔
      w &&& 0xFE00707F#32 = 0x00001033#32 ∧ rdOf w = rd ∧ rs1Of w = rs1 ∧ rs2Of w = rs2) ∧
    (rd ≠ 0#5 → ∃ t, exec (.sll rd rs1 rs2) s = .next t ∧
      WritesOnly s t rd ((s.regValue rs1 * 2 ^ (s.regValue rs2 % 32)) % 2 ^ s.config.xlen.bits)) ∧
    (rd = 0#5 → s.config.x0WritePolicy = .fault → ∃ t, exec (.sll rd rs1 rs2) s = .next t ∧
      RaisesOnly s t (.reservedRegisterWrite s.fpc (encode (.sll rd rs1 rs2))))

/-- R102. -/
def Obligations.SrlWritesFloorQuotient : Prop :=
  ∀ (s : State) (rd rs1 rs2 : RegIndex),
    (∀ w, decode w = .known (.srl rd rs1 rs2) ↔
      w &&& 0xFE00707F#32 = 0x00005033#32 ∧ rdOf w = rd ∧ rs1Of w = rs1 ∧ rs2Of w = rs2) ∧
    (rd ≠ 0#5 → ∃ t, exec (.srl rd rs1 rs2) s = .next t ∧
      WritesOnly s t rd (s.regValue rs1 / 2 ^ (s.regValue rs2 % 32))) ∧
    (rd = 0#5 → s.config.x0WritePolicy = .fault → ∃ t, exec (.srl rd rs1 rs2) s = .next t ∧
      RaisesOnly s t (.reservedRegisterWrite s.fpc (encode (.srl rd rs1 rs2))))

/-- R111. -/
def Obligations.SltuWritesUnsignedComparison : Prop :=
  ∀ (s : State) (rd rs1 rs2 : RegIndex),
    (∀ w, decode w = .known (.sltu rd rs1 rs2) ↔
      w &&& 0xFE00707F#32 = 0x00003033#32 ∧ rdOf w = rd ∧ rs1Of w = rs1 ∧ rs2Of w = rs2) ∧
    (rd ≠ 0#5 → ∃ t, exec (.sltu rd rs1 rs2) s = .next t ∧
      WritesOnly s t rd (if s.regValue rs1 < s.regValue rs2 then 1 else 0)) ∧
    (rd = 0#5 → s.config.x0WritePolicy = .fault → ∃ t, exec (.sltu rd rs1 rs2) s = .next t ∧
      RaisesOnly s t (.reservedRegisterWrite s.fpc (encode (.sltu rd rs1 rs2))))

/-- R112, bit by bit. -/
def Obligations.XorWritesBitwiseExclusiveOr : Prop :=
  ∀ (s : State) (rd rs1 rs2 : RegIndex),
    (∀ w, decode w = .known (.xor rd rs1 rs2) ↔
      w &&& 0xFE00707F#32 = 0x00004033#32 ∧ rdOf w = rd ∧ rs1Of w = rs1 ∧ rs2Of w = rs2) ∧
    (rd ≠ 0#5 → ∃ t, exec (.xor rd rs1 rs2) s = .next t ∧
      (∃ v, WritesOnly s t rd v ∧ v < 2 ^ s.config.xlen.bits ∧
        ∀ k, k < s.config.xlen.bits →
          v.testBit k = ((s.regValue rs1).testBit k ^^ (s.regValue rs2).testBit k))) ∧
    (rd = 0#5 → s.config.x0WritePolicy = .fault → ∃ t, exec (.xor rd rs1 rs2) s = .next t ∧
      RaisesOnly s t (.reservedRegisterWrite s.fpc (encode (.xor rd rs1 rs2))))

/-- R113, bit by bit. -/
def Obligations.OrWritesBitwiseInclusiveOr : Prop :=
  ∀ (s : State) (rd rs1 rs2 : RegIndex),
    (∀ w, decode w = .known (.or rd rs1 rs2) ↔
      w &&& 0xFE00707F#32 = 0x00006033#32 ∧ rdOf w = rd ∧ rs1Of w = rs1 ∧ rs2Of w = rs2) ∧
    (rd ≠ 0#5 → ∃ t, exec (.or rd rs1 rs2) s = .next t ∧
      (∃ v, WritesOnly s t rd v ∧ v < 2 ^ s.config.xlen.bits ∧
        ∀ k, k < s.config.xlen.bits →
          v.testBit k = ((s.regValue rs1).testBit k || (s.regValue rs2).testBit k))) ∧
    (rd = 0#5 → s.config.x0WritePolicy = .fault → ∃ t, exec (.or rd rs1 rs2) s = .next t ∧
      RaisesOnly s t (.reservedRegisterWrite s.fpc (encode (.or rd rs1 rs2))))

/-- R114, bit by bit. -/
def Obligations.AndWritesBitwiseAnd : Prop :=
  ∀ (s : State) (rd rs1 rs2 : RegIndex),
    (∀ w, decode w = .known (.and rd rs1 rs2) ↔
      w &&& 0xFE00707F#32 = 0x00007033#32 ∧ rdOf w = rd ∧ rs1Of w = rs1 ∧ rs2Of w = rs2) ∧
    (rd ≠ 0#5 → ∃ t, exec (.and rd rs1 rs2) s = .next t ∧
      (∃ v, WritesOnly s t rd v ∧ v < 2 ^ s.config.xlen.bits ∧
        ∀ k, k < s.config.xlen.bits →
          v.testBit k = ((s.regValue rs1).testBit k && (s.regValue rs2).testBit k))) ∧
    (rd = 0#5 → s.config.x0WritePolicy = .fault → ∃ t, exec (.and rd rs1 rs2) s = .next t ∧
      RaisesOnly s t (.reservedRegisterWrite s.fpc (encode (.and rd rs1 rs2))))

/-- 10_state.md section 2 (R16): an instruction reads its source registers and nothing else: harts of one configuration that agree
on the sources get the same value in `rd`, whatever their other registers, pc and program hold. -/
def Obligations.ResultDependsOnSourcesOnly : Prop :=
  ∀ (i : Instr) (s s' : State), s.config = s'.config → (∀ r ∈ i.sources, s.regValue r = s'.regValue r) →
    ∃ t t', exec i s = .next t ∧ exec i s' = .next t' ∧ t.regValue i.rd = t'.regValue i.rd

/-! ### Laws of the operand forms and of the ALU -/

/-- 30_encoding.md section 2 (R54; never zero-extended is the spec's own decision, D2): the immediate's value, unsigned and
signed, with its examples. -/
def Obligations.ImmediateIsSignExtended : Prop :=
  (∀ (n : Xlen) (imm12 : Imm12),
    (immx n imm12).toNat =
        (if imm12.toNat < 0x800 then imm12.toNat else imm12.toNat + 2 ^ n.bits - 4096) ∧
      (immx n imm12).toInt = (if imm12.toNat < 0x800 then (imm12.toNat : Int) else imm12.toNat - 4096) ∧
      -2048 ≤ (immx n imm12).toInt ∧ (immx n imm12).toInt ≤ 2047) ∧
    (immx .w32 0x005#12).toNat = 5 ∧ (immx .w64 0x005#12).toNat = 5 ∧
    (immx .w32 0xFFF#12).toNat = 0xFFFFFFFF ∧ (immx .w64 0xFFF#12).toNat = 0xFFFFFFFFFFFFFFFF ∧
    (immx .w32 0x800#12).toNat = 0xFFFFF800 ∧ (immx .w64 0x800#12).toNat = 0xFFFFFFFFFFFFF800

/-- 41_add_sub_addi.md section 1 (R90): the true sum or difference modulo 2^XLEN, whichever way the operands are read, and with
`rd ≠ 0` no fault whatever the operands. That SUB's difference is first source minus second is the spec's own decision (D10,
notes/assumptions/11.md). -/
def Obligations.AddAndSubWrapForBothReadings : Prop :=
  (∀ (s : State) (i : Instr), i.op = .addi ∨ i.op = .add ∨ i.op = .sub → i.rd ≠ 0#5 →
    ∃ t, exec i s = .next t ∧ t.fault = s.fault) ∧
  ∀ (n : Xlen) (a b : Word n),
    (alu .add a b).toNat = (a.toNat + b.toNat) % 2 ^ n.bits ∧
      (alu .addi a b).toNat = (a.toNat + b.toNat) % 2 ^ n.bits ∧
      ((alu .sub a b).toNat : Int) = ((a.toNat : Int) - b.toNat) % 2 ^ n.bits ∧
      ((alu .add a b).toNat : Int) = (a.toInt + b.toInt) % 2 ^ n.bits ∧
      ((alu .addi a b).toNat : Int) = (a.toInt + b.toInt) % 2 ^ n.bits ∧
      ((alu .sub a b).toNat : Int) = (a.toInt - b.toInt) % 2 ^ n.bits

/-- 42_shift.md section 1: only the low 5 bits of the second source count, the first source is what is shifted, at both widths. -/
def Obligations.ShiftAmountIsLowFiveBits : Prop :=
  ∀ (n : Xlen) (a b c : Word n), (∀ k, k < 5 → b.getLsbD k = c.getLsbD k) →
    alu .sll a b = alu .sll a c ∧ alu .srl a b = alu .srl a c ∧
      (alu .sll a b).toNat = (a.toNat * 2 ^ (b.toNat % 32)) % 2 ^ n.bits ∧
      (alu .srl a b).toNat = a.toNat / 2 ^ (b.toNat % 32)

/-- R110: each result bit of XOR, OR and AND depends on that bit of the operands only; SLTU gives 0 or 1; none of the four
raises anything with `rd ≠ 0`. -/
def Obligations.BitwiseResultBitsAreIndependent : Prop :=
  (∀ (n : Xlen) (a b c d : Word n) (k : Nat), a.getLsbD k = c.getLsbD k → b.getLsbD k = d.getLsbD k →
    (alu .xor a b).getLsbD k = (alu .xor c d).getLsbD k ∧
      (alu .or a b).getLsbD k = (alu .or c d).getLsbD k ∧
      (alu .and a b).getLsbD k = (alu .and c d).getLsbD k) ∧
  (∀ (n : Xlen) (a b : Word n),
    (alu .sltu a b).getLsbD 0 = decide (a.toNat < b.toNat) ∧
      ∀ k, 1 ≤ k → (alu .sltu a b).getLsbD k = false) ∧
  (∀ (s : State) (i : Instr), i.op = .sltu ∨ i.op = .xor ∨ i.op = .or ∨ i.op = .and → i.rd ≠ 0#5 →
    ∃ t, exec i s = .next t ∧ t.fault = s.fault)

/-! ### Decoding and encoding -/

/-- R77: every instruction's word decodes to it, with every operand at every value. -/
def Obligations.DecodeOfEncodeIsIdentity : Prop :=
  ∀ i : Instr, i.wellFormed = true → decode (encode i) = .known i

/-- 30_encoding.md sections 1 and 3: every bit of a known word belongs to a field, so the instruction gives the word back. -/
def Obligations.EncodeOfDecodeIsIdentity : Prop :=
  ∀ (w : InstrWord) (i : Instr), decode w = .known i → encode i = w ∧ i.wellFormed = true

/-- 30_encoding.md section 5 (R64): the encoding function as arithmetic on the fields. -/
def Obligations.EncodingIsSumOfPlacedFields : Prop :=
  (∀ (rd rs1 : RegIndex) (imm12 : Imm12),
    (encode (.addi rd rs1 imm12)).toNat =
      imm12.toNat * 2 ^ 20 + rs1.toNat * 2 ^ 15 + 0 * 2 ^ 12 + rd.toNat * 2 ^ 7 + 0x13) ∧
  (∀ (rd rs1 rs2 : RegIndex) (i : Instr) (funct3 funct7 : Nat),
    (i, funct3, funct7) ∈
      [(Instr.add rd rs1 rs2, 0, 0x00), (Instr.sub rd rs1 rs2, 0, 0x20), (Instr.sll rd rs1 rs2, 1, 0x00),
       (Instr.sltu rd rs1 rs2, 3, 0x00), (Instr.xor rd rs1 rs2, 4, 0x00), (Instr.srl rd rs1 rs2, 5, 0x00),
       (Instr.or rd rs1 rs2, 6, 0x00), (Instr.and rd rs1 rs2, 7, 0x00)] →
    (encode i).toNat =
      funct7 * 2 ^ 25 + rs2.toNat * 2 ^ 20 + rs1.toNat * 2 ^ 15 + funct3 * 2 ^ 12 + rd.toNat * 2 ^ 7 + 0x33) ∧
  (∀ n : Int, -2048 ≤ n → n ≤ -1 → ((SourceImm.decimal n).toField.toNat : Int) = n + 4096)

/-- R75: the decoder answers the row of the opcode table a word matches, with its fields, or unknown when none matches. -/
def Obligations.DecoderAgreesWithOpcodeTable : Prop :=
  ∀ w : InstrWord,
    (decode w = .unknown ↔ ∀ row ∈ opcodeTable, row.matches w = false) ∧
      ∀ row ∈ opcodeTable, row.matches w = true →
        (row.op = .addi → decode w = .known (.addi (rdOf w) (rs1Of w) (imm12Of w))) ∧
          (row.op ≠ .addi →
            ∃ i, row.op.rInstr (rdOf w) (rs1Of w) (rs2Of w) = some i ∧ decode w = .known i)

/-- 30_encoding.md section 3 (R59, derived by the spec from its table): no word matches two rows, and exactly 4,456,448 words are instructions. -/
def Obligations.KnownWordsAreDisjointAndCounted : Prop :=
  (∀ (w : InstrWord) (row row' : OpcodeRow), row ∈ opcodeTable → row' ∈ opcodeTable →
    row.matches w = true → row'.matches w = true → row = row') ∧
  Set.ncard { w : InstrWord | decode w ≠ .unknown } = 4456448 ∧
  Set.ncard { w : InstrWord | decode w = .unknown } = 4290510848

/-- R73: the operation tag and the codes determine each other, and the instruction has the word's fields. -/
def Obligations.OperationAndCodesDetermineEachOther : Prop :=
  (∀ (w w' : InstrWord) (i i' : Instr), decode w = .known i → decode w' = .known i' →
    (i.op = i'.op ↔
      opcodeOf w = opcodeOf w' ∧ funct3Of w = funct3Of w' ∧
        (i.op = .addi ∨ funct7Of w = funct7Of w'))) ∧
  (∀ (w : InstrWord) (i : Instr), decode w = .known i →
    i = .addi (rdOf w) (rs1Of w) (imm12Of w) ∨ i.op.rInstr (rdOf w) (rs1Of w) (rs2Of w) = some i) ∧
  ∀ op : Op, ∃ w i, decode w = .known i ∧ i.op = op

/-- R65, and words of 95_test_vectors.md V1, one of every family. -/
def Obligations.SampleWordsDecode : Prop :=
  decode 0x00500093#32 = .known (.addi 1 0 0x005#12) ∧ decode 0x00108133#32 = .known (.add 2 1 1) ∧
    decode 0x41FF8FB3#32 = .known (.sub 31 31 31) ∧ decode 0x01FFDFB3#32 = .known (.srl 31 31 31) ∧
    decode 0x01FFBFB3#32 = .known (.sltu 31 31 31)

/-- 30_encoding.md section 5 (the syntax is the spec's own decision, D13): a source line gives an instruction exactly when it is well formed, and every instruction's line gives it back. -/
def Obligations.SourceLinesAssemble : Prop :=
  (∀ line : SourceLine, line.assemble.isSome = line.wellFormed) ∧
    (∀ i : Instr, i.toSource.assemble = some i) ∧
    (∀ (xd xs1 n : Nat), n ≤ 4095 → xd ≤ 31 → xs1 ≤ 31 →
      ∃ rd rs1 imm12, (SourceLine.addi xd xs1 (.field n)).assemble = some (.addi rd rs1 imm12) ∧
        rd.toNat = xd ∧ rs1.toNat = xs1 ∧ imm12.toNat = n) ∧
    (SourceLine.addi 1 0 (.decimal 5)).assemble.map encode = some 0x00500093#32 ∧
    (SourceLine.reg .add 2 1 1).assemble.map encode = some 0x00108133#32

/-! ### The step -/

/-- 44_sequencer.md section 2: the step of a Running hart whose fetched word is an instruction is that instruction's execute
phase in the state with the pc advanced. -/
def Obligations.StepExecutesDecodedInstruction : Prop :=
  ∀ (s : State) (w : InstrWord) (i : Instr),
    s.status = .running → s.fetch = some w → decode w = .known i → step s = exec i s.advancePc

/-- 44_sequencer.md section 2 (R121): the step of a Running hart and its only two kinds of outcome. R121 enables a step in Running
only: that a step asked for in another status answers the same state (Halted, notes/assumptions/8.md) or raises Missing-Program
(NoProgram, notes/assumptions/9.md), and so fetches, advances and executes nothing, is the model's own: a choice (8) and an
inference (9). -/
def Obligations.RunningStepFetchesAdvancesDecodesExecutes : Prop :=
  (∀ (s : State) (m : Memory), s.fault = none → s.program = some m → s.pc < m.len →
    (s.pc % 4 ≠ 0 ∨ s.pc + 3 > m.len - 1 → step s = .next (s.raise (.boundsAlignment s.pc))) ∧
    (s.pc % 4 = 0 → s.pc + 3 ≤ m.len - 1 →
      (decode (m.readWord s.pc) = .unknown →
        step s = .next (s.advancePc.raise (.decode s.pc (m.readWord s.pc)))) ∧
      ∀ i, decode (m.readWord s.pc) = .known i → step s = exec i s.advancePc) ∧
    ∃ t, step s = .next t ∧
      ((t.fault = none ∧ t.pc = s.pc + 4 ∧ ∃ r, ∀ q, q ≠ r → t.regValue q = s.regValue q) ∨
        (t.fault ≠ none ∧ SameRegisters s t))) ∧
  ∀ s t : State, s.status ≠ .running → step s = .next t → t.pc = s.pc ∧ SameRegisters s t

/-- R123: after a successful fetch the pc is advanced by exactly 4, whatever the word; no instruction writes the pc; the
addition cannot overflow any pc width that can hold LEN. -/
def Obligations.PcAdvancesByFourUnconditionally : Prop :=
  (∀ (s : State) (w : InstrWord), s.status = .running → s.fetch = some w →
    ∃ t, step s = .next t ∧ t.pc = s.pc + 4) ∧
  (∀ (i : Instr) (s t : State), exec i s = .next t → t.pc = s.pc) ∧
  (∀ (s t : State), step s = .next t → t.pc = s.pc ∨ (s.fetch ≠ none ∧ t.pc = s.pc + 4)) ∧
  ∀ (s : State) (m : Memory) (pclen : Nat), s.program = some m → s.fetch ≠ none → m.len ≤ 2 ^ pclen - 1 →
    (s.pc + 4) % 2 ^ pclen = s.pc + 4

/-- 44_sequencer.md section 4 (R134, derived by the spec from its other rules): the effect of a sequence of instructions on the registers does not depend on where it stands. -/
def Obligations.RegisterEffectIsIndependentOfPosition : Prop :=
  ∀ (is : List Instr) (s : State) (pc : Nat),
    ∃ t t', execAll is s = .next t ∧ execAll is (s.withPc pc) = .next t' ∧ SameRegisters t t'

/-- R31: no step changes a byte of the buffer, its length, or a parameter. -/
def Obligations.ProgramIsImmutable : Prop :=
  (∀ (s t : State), step s = .next t → SameParameters s t) ∧
    (∀ (i : Instr) (s t : State), exec i s = .next t → SameParameters s t) ∧
    ∀ (s t : State), run s = .next t → SameParameters s t

/-- A host's placing of a word at the pc (notes/assumptions/13.md) is what the next step fetches and runs, and keeps memory
canonical. The model's own operation, no rule of the spec. -/
def Obligations.PlacedWordIsFetchedNext : Prop :=
  ∀ (s : State) (w : InstrWord), s.pc % 4 = 0 → s.memoryWf = true →
    (s.withFetchWord 32 w.toNat).fetch = some w ∧ (s.withFetchWord 32 w.toNat).memoryWf = true ∧
      (s.withFetchWord 32 w.toNat).status = .running

/-! ### Faults -/

/-- R60, R142: a word that matches no row of the opcode table raises Decode with its address and itself, after the pc advance,
changes no register and ends the run; the examples of R60 are such words. -/
def Obligations.UnknownWordRaisesDecode : Prop :=
  (∀ (s : State) (w : InstrWord), s.status = .running → s.fetch = some w →
    (∀ row ∈ opcodeTable, w &&& row.mask ≠ row.value) →
    ∃ t, step s = .next t ∧ RaisesOnly s.advancePc t (.decode s.pc w) ∧ RunIsOver t) ∧
  ∀ w ∈ [0x00000000#32, 0xFFFFFFFF#32, 0x00002033#32, 0x40005033#32, 0x02000033#32, 0x00001013#32,
      0x00000073#32, 0x0000000F#32, 0x00000037#32, 0x00000023#32, 0x00000003#32, 0x00000063#32, 0x0000006F#32],
    decode w = .unknown

/-- 60_exceptions.md section 1 (R143; the policy `fault` is the spec's own decision, D3): under `fault` an instruction with
`rd = 0` decodes and raises Reserved-Register-Write with its address and its word, after the pc advance, changes no register
and ends the run, whatever its sources and its result. -/
def Obligations.RegisterZeroDestinationRaises : Prop :=
  (∀ (s : State) (w : InstrWord) (i : Instr), s.status = .running → s.fetch = some w → decode w = .known i →
    i.rd = 0#5 → s.config.x0WritePolicy = .fault →
    ∃ t, step s = .next t ∧ RaisesOnly s.advancePc t (.reservedRegisterWrite s.pc w) ∧ RunIsOver t) ∧
  decode 0x00000013#32 = .known (.addi 0 0 0)

/-- 60_exceptions.md section 1 (R144): `run` of a hart without a program raises Missing-Program at once, pc and registers staying
0, and the run is over; an empty program is a program, and its run changes nothing, since it is Halted from creation (the
spec's own decision, D14, notes/assumptions/16.md). -/
def Obligations.MissingProgramRaisesOnRun : Prop :=
  ∀ c : Config,
    (∃ t, run (create c none) = .next t ∧ RaisesOnly (create c none) t (.missingProgram 0) ∧
      RunIsOver t ∧ t.pc = 0 ∧ ∀ r, t.regValue r = 0) ∧
    run (create c (some [])) = .next (create c (some []))

/-- 10_state.md section 4 (the names of the statuses are the spec's own decision, D5 and D6): the status is this function of fault,
program, pc and LEN; under the invariant Halted means `pc = LEN`, a multiple of 4. -/
def Obligations.StatusFollowsFaultProgramAndPc : Prop :=
  (∀ s : State,
    (s.status = .faulted ↔ s.fault ≠ none) ∧
      (s.status = .noProgram ↔ s.fault = none ∧ s.program = none) ∧
      (s.status = .running ↔ s.fault = none ∧ ∃ m, s.program = some m ∧ s.pc < m.len) ∧
      (s.status = .halted ↔ s.fault = none ∧ ∃ m, s.program = some m ∧ m.len ≤ s.pc)) ∧
    ∀ s : State, Inv s → s.status = .halted → ∃ m, s.program = some m ∧ s.pc = m.len ∧ m.len % 4 = 0

/-- 60_exceptions.md section 2 (the record is the spec's own decision, D6): fault entry sets the record and changes nothing else; from then on the status is Faulted, no step is enabled and a run
changes nothing. -/
def Obligations.FaultEntrySetsRecordAndIsTerminal : Prop :=
  ∀ (s : State) (record : FaultRecord),
    RaisesOnly s (s.raise record) record ∧ (s.raise record).status = .faulted ∧
      (∀ t, step (s.raise record) ≠ .next t) ∧ run (s.raise record) = .next (s.raise record)

/-- 10_state.md section 4 (the record is the spec's own decision, D6 and D8): a fault record is never cleared or overwritten, and holds a word exactly for Decode and ReservedRegisterWrite. -/
def Obligations.FaultRecordIsSetOnce : Prop :=
  (∀ (c : Config) (image : Option (List Byte)), (create c image).fault = none) ∧
    (∀ (s : State) (record : FaultRecord), s.fault = some record →
      (∀ k t, Host.Core.run Sys2Proof.core k s = .next t → t.fault = some record) ∧
        ∀ t, run s = .next t → t.fault = some record) ∧
    ∀ record : FaultRecord,
      record.word ≠ none ↔ record.kind = .decode ∨ record.kind = .reservedRegisterWrite

/-- 60_exceptions.md section 2 (the table of R147; that `fpc` is the instruction's address is the spec's own decision, D8): the pc, the
registers and the record each kind of fault leaves behind. -/
def Obligations.FaultLeavesStateOfTable : Prop :=
  ∀ (s t : State) (record : FaultRecord), Inv s → step s = .next t → s.fault = none → t.fault = some record →
    SameRegisters s t ∧ record.fpc = s.pc ∧
      match record.kind with
      | .boundsAlignment => t.pc = s.pc ∧ record.word = none
      | .decode => t.pc = s.pc + 4 ∧ record.word = s.fetch
      | .reservedRegisterWrite => t.pc = s.pc + 4 ∧ record.word = s.fetch
      | .missingProgram => t.pc = 0 ∧ record.fpc = 0 ∧ record.word = none ∧ ∀ r, t.regValue r = 0

/-- 60_exceptions.md section 2 (R148, derived by the spec from the step): the checks of a step in their order; the first that fails is the one fault of the step; Missing-Program comes before
any step. An unknown word whose bits 11:7 are 0 raises Decode. -/
def Obligations.FaultsAreDetectedInStepOrder : Prop :=
  (∀ (s : State) (m : Memory), s.fault = none → s.program = some m → s.pc < m.len →
    ∃ t, step s = .next t ∧
      t.fault =
        if ¬(s.pc % 4 = 0 ∧ s.pc + 3 ≤ m.len - 1) then some (.boundsAlignment s.pc)
        else
          match decode (m.readWord s.pc) with
          | .unknown => some (.decode s.pc (m.readWord s.pc))
          | .known i =>
            if i.rd = 0#5 ∧ s.config.x0WritePolicy = .fault then
              some (.reservedRegisterWrite s.pc (m.readWord s.pc))
            else none) ∧
  (∀ s : State, s.fault = none → s.program = none →
    step s = .next (s.raise (.missingProgram s.pc)) ∧ run s = .next (s.raise (.missingProgram s.pc))) ∧
  rdOf 0x00002033#32 = 0#5 ∧ decode 0x00002033#32 = .unknown

/-! ### Invariants -/

/-- Creation gives a state that meets the invariant; so does State.reset (the model's choice of parameters,
notes/assumptions/2.md to 4.md). -/
def Obligations.CreatedHartMeetsInvariant : Prop :=
  (∀ (c : Config) (image : Option (List Byte)), Inv (create c image)) ∧ Inv State.reset

/-- Every step keeps the invariant: canonical memory, an aligned pc within the program (R20), and a fault record that fits
(R147). -/
def Obligations.StepKeepsInvariant : Prop :=
  ∀ s t : State, Inv s → step s = .next t → Inv t

/-- 10_state.md section 3 (R20, derived by the spec from the step): in every state a created hart reaches the pc is a multiple of 4 and at most LEN; so it fits any PCLEN that can hold LEN,
and the advance does not wrap; the alignment half of the fetch precondition never fails. -/
def Obligations.ReachedPcIsAlignedBoundedAndNeverWraps : Prop :=
  ∀ (c : Config) (bytes : List Byte) (k : Nat) (t : State),
    Host.Core.run Sys2Proof.core k (create c (some bytes)) = .next t →
      t.pc % 4 = 0 ∧ t.pc ≤ bytes.length ∧
        ∀ pclen, bytes.length ≤ 2 ^ pclen - 1 →
          t.pc < 2 ^ pclen ∧ (t.fetch ≠ none → (t.pc + 4) % 2 ^ pclen = t.pc + 4)

/-! ### The run -/

/-- 44_sequencer.md section 3 (the spec's own decision, D17): `run` on a hart that is Halted or Faulted takes no step and changes nothing. -/
def Obligations.RunOnTerminalHartChangesNothing : Prop :=
  ∀ s : State, s.status = .halted ∨ s.status = .faulted → run s = .next s

/-- 44_sequencer.md section 3 (R127, derived by the spec from the step; R130): every run ends, in a state that is not Running and that at most `floor(LEN / 4) + 1` steps reach; a Running hart is never
stuck; and a program of instructions that do not write register 0 (or any, under `discard`) executes exactly those, in order,
each once, and ends Halted with `pc = LEN`. That a hart without a program reaches its end by one step is the model's inference
(notes/assumptions/9.md), and so is the bound `run` is written with (notes/assumptions/15.md), which cuts no run short. -/
def Obligations.EveryRunEndsAndStraightLineCodeCompletes : Prop :=
  (∀ s : State, ∃ t, run s = .next t ∧ t.status ≠ .running ∧
    ∃ k, k ≤ s.stepBound ∧ Host.Core.run Sys2Proof.core k s = .next t) ∧
  (∀ s : State, s.status = .running → ∃ t, step s = .next t) ∧
  ∀ (c : Config) (is : List Instr), (∀ i ∈ is, c.x0WritePolicy = .fault → i.rd ≠ 0#5) →
    ∃ t u, run (create c (some (imageOf is))) = .next t ∧ t.status = .halted ∧ t.fault = none ∧
      t.pc = 4 * is.length ∧ t.pc = (imageOf is).length ∧
      Host.Core.run Sys2Proof.core is.length (create c (some (imageOf is))) = .next t ∧
      execAll is (create c (some (imageOf is))) = .next u ∧ SameRegisters u t

/-- 60_exceptions.md section 2 (R149, derived by the spec from the step): when a fault is raised at `fpc`, the instructions before it have completed and the one at `fpc` and all later ones have
changed no register: whatever follows the instructions in the image, the registers are those the instructions leave. -/
def Obligations.FaultsArePrecise : Prop :=
  ∀ (c : Config) (is : List Instr) (tail : List Byte) (t : State) (record : FaultRecord),
    (∀ i ∈ is, c.x0WritePolicy = .fault → i.rd ≠ 0#5) →
    run (create c (some (imageOf is ++ tail))) = .next t → t.fault = some record →
    record.fpc = 4 * is.length →
    ∃ u, execAll is (create c (some (imageOf is ++ tail))) = .next u ∧ SameRegisters u t

/-- 70_reset_and_hazards.md section 2 (R173, derived by the spec from the faults): a run ends Halted exactly for a program that is present and meets (b), (c) and (d); otherwise it ends Faulted.
That the empty program is one of these rests on the spec's own decision D14 (notes/assumptions/16.md). -/
def Obligations.RunHaltsExactlyForRunnableImages : Prop :=
  ∀ (c : Config) (image : Option (List Byte)),
    ∃ t, run (create c image) = .next t ∧
      (t.status = .halted ↔ ∃ bytes, image = some bytes ∧ Runnable c bytes) ∧
      (t.status ≠ .halted → t.status = .faulted)

/-- 10_state.md section 2 (when it is offered is the spec's own decision, D16): the 32 register values, in Halted and Faulted, and nothing while Running. -/
def Obligations.InspectionGivesAllRegisters : Prop :=
  (∀ s : State, s.status = .halted ∨ s.status = .faulted →
    ∃ values, inspect s = some values ∧ values.length = 32 ∧
      ∀ i : RegIndex, values[i.toNat]? = some (s.readReg i)) ∧
  ∀ s : State, s.status = .running → inspect s = none

/-! ### No pseudo-instructions -/

/-- 30_encoding.md section 5 (R63, derived by the spec from R58 and R61; the syntax is its own decision, D13): the nine mnemonics
and no other name an operation; the lines for a register copy and a small constant are ordinary instructions that have these
effects; the line of the usual `nop` is the ordinary instruction `ADDI x0, x0, 0`, and it and every other line with destination
`x0` raises Reserved-Register-Write under the policy `fault` (the spec's own decision, D3). -/
def Obligations.CopiesAndConstantsAreOrdinaryInstructions : Prop :=
  ((∀ (mnemonic : String) (op : Op), Op.ofMnemonic mnemonic = some op ↔ op.mnemonic = mnemonic) ∧
    Op.ofMnemonic "NOP" = none ∧ Op.ofMnemonic "MV" = none ∧ Op.ofMnemonic "LI" = none) ∧
  (∀ (s : State) (xd xs : RegIndex), xd ≠ 0#5 →
    ∃ i j t u, (SourceLine.copyByAddi xd.toNat xs.toNat).assemble = some i ∧
      (SourceLine.copyByAdd xd.toNat xs.toNat).assemble = some j ∧
      exec i s = .next t ∧ WritesOnly s t xd (s.regValue xs) ∧
      exec j s = .next u ∧ WritesOnly s u xd (s.regValue xs)) ∧
  (∀ (s : State) (xd : RegIndex) (imm : Int), xd ≠ 0#5 → -2048 ≤ imm → imm ≤ 2047 →
    ∃ i t v, (SourceLine.smallConstant xd.toNat imm).assemble = some i ∧
      exec i s = .next t ∧ WritesOnly s t xd v ∧ (v : Int) = imm % 2 ^ s.config.xlen.bits) ∧
  SourceLine.usualNop.assemble.map encode = some 0x00000013#32 ∧
  ∀ (s : State) (line : SourceLine) (i : Instr), line.assemble = some i → i.rd = 0#5 →
    s.config.x0WritePolicy = .fault →
    ∃ t, exec i s = .next t ∧ RaisesOnly s t (.reservedRegisterWrite s.fpc (encode i))
end

