-- ==== Sys2Proof/Laws/Decode.lean ====
section
/-!
SUPPORT. The fields of a word: those of an encoded word, a word put together from its fields, the rows of the opcode table in terms
of fields, and the bytes of a word.
-/

namespace Sys2Proof

/-! ### The fields of an encoded word (R51, R52, R53) -/

section
variable (rd rs1 rs2 : RegIndex) (imm12 : Imm12) (funct3 : BitVec 3) (funct7 : BitVec 7)

@[simp] theorem opcodeOf_encodeIShape : opcodeOf (encodeIShape rd rs1 imm12) = 0x13#7 := by
  apply BitVec.eq_of_getLsbD_eq
  intro i hi
  simp only [opcodeOf, encodeIShape, BitVec.getLsbD_extractLsb', BitVec.getLsbD_append]
  interval_cases i <;> simp

@[simp] theorem rdOf_encodeIShape : rdOf (encodeIShape rd rs1 imm12) = rd := by
  apply BitVec.eq_of_getLsbD_eq
  intro i hi
  simp only [rdOf, encodeIShape, BitVec.getLsbD_extractLsb', BitVec.getLsbD_append]
  interval_cases i <;> simp

@[simp] theorem funct3Of_encodeIShape : funct3Of (encodeIShape rd rs1 imm12) = 0x0#3 := by
  apply BitVec.eq_of_getLsbD_eq
  intro i hi
  simp only [funct3Of, encodeIShape, BitVec.getLsbD_extractLsb', BitVec.getLsbD_append]
  interval_cases i <;> simp

@[simp] theorem rs1Of_encodeIShape : rs1Of (encodeIShape rd rs1 imm12) = rs1 := by
  apply BitVec.eq_of_getLsbD_eq
  intro i hi
  simp only [rs1Of, encodeIShape, BitVec.getLsbD_extractLsb', BitVec.getLsbD_append]
  interval_cases i <;> simp

@[simp] theorem imm12Of_encodeIShape : imm12Of (encodeIShape rd rs1 imm12) = imm12 := by
  apply BitVec.eq_of_getLsbD_eq
  intro i hi
  simp only [imm12Of, encodeIShape, BitVec.getLsbD_extractLsb', BitVec.getLsbD_append]
  interval_cases i <;> simp

@[simp] theorem opcodeOf_encodeRShape : opcodeOf (encodeRShape funct3 funct7 rd rs1 rs2) = 0x33#7 := by
  apply BitVec.eq_of_getLsbD_eq
  intro i hi
  simp only [opcodeOf, encodeRShape, BitVec.getLsbD_extractLsb', BitVec.getLsbD_append]
  interval_cases i <;> simp

@[simp] theorem rdOf_encodeRShape : rdOf (encodeRShape funct3 funct7 rd rs1 rs2) = rd := by
  apply BitVec.eq_of_getLsbD_eq
  intro i hi
  simp only [rdOf, encodeRShape, BitVec.getLsbD_extractLsb', BitVec.getLsbD_append]
  interval_cases i <;> simp

@[simp] theorem funct3Of_encodeRShape : funct3Of (encodeRShape funct3 funct7 rd rs1 rs2) = funct3 := by
  apply BitVec.eq_of_getLsbD_eq
  intro i hi
  simp only [funct3Of, encodeRShape, BitVec.getLsbD_extractLsb', BitVec.getLsbD_append]
  interval_cases i <;> simp

@[simp] theorem rs1Of_encodeRShape : rs1Of (encodeRShape funct3 funct7 rd rs1 rs2) = rs1 := by
  apply BitVec.eq_of_getLsbD_eq
  intro i hi
  simp only [rs1Of, encodeRShape, BitVec.getLsbD_extractLsb', BitVec.getLsbD_append]
  interval_cases i <;> simp

@[simp] theorem rs2Of_encodeRShape : rs2Of (encodeRShape funct3 funct7 rd rs1 rs2) = rs2 := by
  apply BitVec.eq_of_getLsbD_eq
  intro i hi
  simp only [rs2Of, encodeRShape, BitVec.getLsbD_extractLsb', BitVec.getLsbD_append]
  interval_cases i <;> simp

@[simp] theorem funct7Of_encodeRShape : funct7Of (encodeRShape funct3 funct7 rd rs1 rs2) = funct7 := by
  apply BitVec.eq_of_getLsbD_eq
  intro i hi
  simp only [funct7Of, encodeRShape, BitVec.getLsbD_extractLsb', BitVec.getLsbD_append]
  interval_cases i <;> simp

end

/-! ### A word from its fields (R52, R53: every bit belongs to one field) -/

theorem word_eq_iShape_fields (w : InstrWord) :
    imm12Of w ++ rs1Of w ++ funct3Of w ++ rdOf w ++ opcodeOf w = w := by
  apply BitVec.eq_of_getLsbD_eq
  intro i hi
  simp only [imm12Of, rs1Of, funct3Of, rdOf, opcodeOf, BitVec.getLsbD_append, BitVec.getLsbD_extractLsb']
  interval_cases i <;> simp

theorem word_eq_rShape_fields (w : InstrWord) :
    funct7Of w ++ rs2Of w ++ rs1Of w ++ funct3Of w ++ rdOf w ++ opcodeOf w = w := by
  apply BitVec.eq_of_getLsbD_eq
  intro i hi
  simp only [funct7Of, rs2Of, rs1Of, funct3Of, rdOf, opcodeOf, BitVec.getLsbD_append, BitVec.getLsbD_extractLsb']
  interval_cases i <;> simp

/-- A word whose opcode and funct3 are ADDI's is the encoding of its fields. -/
theorem encodeIShape_fields {w : InstrWord} (ho : opcodeOf w = 0x13#7) (h3 : funct3Of w = 0x0#3) :
    encodeIShape (rdOf w) (rs1Of w) (imm12Of w) = w := by
  have h := word_eq_iShape_fields w
  rwa [ho, h3] at h

/-- A word whose opcode is 0x33 is the encoding of its fields. -/
theorem encodeRShape_fields {w : InstrWord} (ho : opcodeOf w = 0x33#7) :
    encodeRShape (funct3Of w) (funct7Of w) (rdOf w) (rs1Of w) (rs2Of w) = w := by
  have h := word_eq_rShape_fields w
  rwa [ho] at h

/-! ### The rows of the opcode table in terms of fields (R58) -/

/-- The mask of the I-shape row keeps opcode and funct3. -/
theorem iShape_row_iff (w : InstrWord) :
    w &&& 0x0000707F#32 = 0x00000013#32 ↔ opcodeOf w = 0x13#7 ∧ funct3Of w = 0x0#3 := by
  have hv : w &&& 0x0000707F#32 = 0#12 ++ 0#5 ++ funct3Of w ++ 0#5 ++ opcodeOf w := by
    apply BitVec.eq_of_getLsbD_eq
    intro i hi
    simp only [funct3Of, opcodeOf, BitVec.getLsbD_append, BitVec.getLsbD_extractLsb', BitVec.getLsbD_and]
    interval_cases i <;> simp
  rw [hv]
  constructor
  · intro h
    constructor
    · apply BitVec.eq_of_getLsbD_eq
      intro i hi
      have := congrArg (BitVec.getLsbD · i) h
      simp only [BitVec.getLsbD_append] at this
      interval_cases i <;> simpa using this
    · apply BitVec.eq_of_getLsbD_eq
      intro i hi
      have := congrArg (BitVec.getLsbD · (12 + i)) h
      simp only [BitVec.getLsbD_append] at this
      interval_cases i <;> simpa using this
  · rintro ⟨h1, h2⟩
    rw [h1, h2]
    rfl

/-- The mask of an R-shape row keeps opcode, funct3 and funct7. -/
theorem rShape_row_iff (w : InstrWord) (funct3 : BitVec 3) (funct7 : BitVec 7) :
    w &&& 0xFE00707F#32 = encodeRShape funct3 funct7 0 0 0 ↔
      opcodeOf w = 0x33#7 ∧ funct3Of w = funct3 ∧ funct7Of w = funct7 := by
  have hv : w &&& 0xFE00707F#32 = funct7Of w ++ 0#5 ++ 0#5 ++ funct3Of w ++ 0#5 ++ opcodeOf w := by
    apply BitVec.eq_of_getLsbD_eq
    intro i hi
    simp only [funct7Of, funct3Of, opcodeOf, BitVec.getLsbD_append, BitVec.getLsbD_extractLsb', BitVec.getLsbD_and]
    interval_cases i <;> simp
  constructor
  · intro h
    refine ⟨?_, ?_, ?_⟩
    · have := congrArg opcodeOf h
      rw [opcodeOf_encodeRShape, hv] at this
      rw [← this]
      apply BitVec.eq_of_getLsbD_eq
      intro i hi
      conv_rhs => rw [opcodeOf]
      simp only [BitVec.getLsbD_append, BitVec.getLsbD_extractLsb']
      interval_cases i <;> simp
    · have := congrArg funct3Of h
      rw [funct3Of_encodeRShape, hv] at this
      rw [← this]
      apply BitVec.eq_of_getLsbD_eq
      intro i hi
      conv_rhs => rw [funct3Of]
      simp only [BitVec.getLsbD_append, BitVec.getLsbD_extractLsb']
      interval_cases i <;> simp
    · have := congrArg funct7Of h
      rw [funct7Of_encodeRShape, hv] at this
      rw [← this]
      apply BitVec.eq_of_getLsbD_eq
      intro i hi
      conv_rhs => rw [funct7Of]
      simp only [BitVec.getLsbD_append, BitVec.getLsbD_extractLsb']
      interval_cases i <;> simp
  · rintro ⟨h1, h2, h3⟩
    rw [hv, h1, h2, h3]
    rfl

/-! ### The bytes of a word (R33) -/

theorem assembleWord_wordBytes (w : InstrWord) :
    assembleWord (w.extractLsb' 0 8) (w.extractLsb' 8 8) (w.extractLsb' 16 8) (w.extractLsb' 24 8) = w := by
  apply BitVec.eq_of_getLsbD_eq
  intro i hi
  simp only [assembleWord, BitVec.getLsbD_append, BitVec.getLsbD_extractLsb']
  interval_cases i <;> simp

end Sys2Proof
end

