-- ==== Sys2Proof/Laws/State.lean ====
section
/-!
SUPPORT. The fields of a state after each update, one lemma per field per update, so that no proof unfolds a record.
-/

namespace Sys2Proof.Machine

variable (s : State)

/-! ### Raising a fault -/

@[simp] theorem State.raise_config (record : FaultRecord) : (s.raise record).config = s.config := rfl
@[simp] theorem State.raise_x (record : FaultRecord) : (s.raise record).x = s.x := rfl
@[simp] theorem State.raise_pc (record : FaultRecord) : (s.raise record).pc = s.pc := rfl
@[simp] theorem State.raise_program (record : FaultRecord) : (s.raise record).program = s.program := rfl
@[simp] theorem State.raise_fault (record : FaultRecord) : (s.raise record).fault = some record := rfl
@[simp] theorem State.raise_regValue (record : FaultRecord) (r : RegIndex) :
    (s.raise record).regValue r = s.regValue r := rfl

/-! ### Advancing the pc -/

@[simp] theorem State.advancePc_config : s.advancePc.config = s.config := rfl
@[simp] theorem State.advancePc_x : s.advancePc.x = s.x := rfl
@[simp] theorem State.advancePc_pc : s.advancePc.pc = s.pc + 4 := rfl
@[simp] theorem State.advancePc_program : s.advancePc.program = s.program := rfl
@[simp] theorem State.advancePc_fault : s.advancePc.fault = s.fault := rfl
@[simp] theorem State.advancePc_fpc : s.advancePc.fpc = s.pc := rfl
@[simp] theorem State.advancePc_regValue (r : RegIndex) : s.advancePc.regValue r = s.regValue r := rfl

/-! ### Setting a register -/

@[simp] theorem State.setReg_config (i : RegIndex) (v : Word s.config.xlen) : (s.setReg i v).config = s.config := rfl
@[simp] theorem State.setReg_pc (i : RegIndex) (v : Word s.config.xlen) : (s.setReg i v).pc = s.pc := rfl
@[simp] theorem State.setReg_program (i : RegIndex) (v : Word s.config.xlen) :
    (s.setReg i v).program = s.program := rfl
@[simp] theorem State.setReg_fault (i : RegIndex) (v : Word s.config.xlen) : (s.setReg i v).fault = s.fault := rfl

/-! ### A fresh hart -/

@[simp] theorem State.fresh_config (c : Config) (p : Option Memory) : (State.fresh c p).config = c := rfl
@[simp] theorem State.fresh_pc (c : Config) (p : Option Memory) : (State.fresh c p).pc = 0 := rfl
@[simp] theorem State.fresh_program (c : Config) (p : Option Memory) : (State.fresh c p).program = p := rfl
@[simp] theorem State.fresh_fault (c : Config) (p : Option Memory) : (State.fresh c p).fault = none := rfl

/-! ### Another pc, another policy -/

@[simp] theorem State.withPc_config (pc : Nat) : (s.withPc pc).config = s.config := rfl
@[simp] theorem State.withPc_pc (pc : Nat) : (s.withPc pc).pc = pc := rfl
@[simp] theorem State.withPc_program (pc : Nat) : (s.withPc pc).program = s.program := rfl
@[simp] theorem State.withPc_fault (pc : Nat) : (s.withPc pc).fault = s.fault := rfl
@[simp] theorem State.withPc_regValue (pc : Nat) (r : RegIndex) : (s.withPc pc).regValue r = s.regValue r := rfl
@[simp] theorem State.withPolicy_xlen (p : X0WritePolicy) : (s.withPolicy p).config.xlen = s.config.xlen := rfl
@[simp] theorem State.withPolicy_policy (p : X0WritePolicy) : (s.withPolicy p).config.x0WritePolicy = p := rfl
@[simp] theorem State.withPolicy_pc (p : X0WritePolicy) : (s.withPolicy p).pc = s.pc := rfl
@[simp] theorem State.withPolicy_program (p : X0WritePolicy) : (s.withPolicy p).program = s.program := rfl
@[simp] theorem State.withPolicy_fault (p : X0WritePolicy) : (s.withPolicy p).fault = s.fault := rfl

/-! ### Placing a word for the next fetch -/

@[simp] theorem State.withFetchWord_config (nbits w : Nat) : (s.withFetchWord nbits w).config = s.config := rfl
@[simp] theorem State.withFetchWord_x (nbits w : Nat) : (s.withFetchWord nbits w).x = s.x := rfl
@[simp] theorem State.withFetchWord_pc (nbits w : Nat) : (s.withFetchWord nbits w).pc = s.pc := rfl
@[simp] theorem State.withFetchWord_fault (nbits w : Nat) : (s.withFetchWord nbits w).fault = none := rfl
@[simp] theorem State.withFetchWord_program (nbits w : Nat) :
    (s.withFetchWord nbits w).program =
      some ((s.program.getD ⟨0, []⟩).placeBytes s.pc (wordBytes (BitVec.ofNat 32 (w % 2 ^ nbits)))) := rfl

end Sys2Proof.Machine
end

