-- ==== Sys2Proof/Laws/Registers.lean ====
section
/-!
SUPPORT. The register file (R13, R14): one lemma for a read after a write, and its consequences for states.
-/

namespace Sys2Proof.Machine

@[simp] theorem RegFile.read_zero {n : Xlen} (x : RegFile n) : x.read 0#5 = 0#_ := by simp [RegFile.read]

@[simp] theorem RegFile.write_zero {n : Xlen} (x : RegFile n) (v : Word n) : x.write 0#5 v = x := by
  simp [RegFile.write]

/-- Index 0 is the one index whose number is 0. -/
theorem regIndex_toNat_ne_zero {i : RegIndex} (h : i ≠ 0#5) : i.toNat ≠ 0 := fun h0 =>
  h (BitVec.eq_of_toNat_eq (by simpa using h0))

/-- A read after a write: the value written, at the index written; what was there, at every other index. -/
theorem RegFile.read_write {n : Xlen} (x : RegFile n) {i : RegIndex} (hi : i ≠ 0#5) (v : Word n) (j : RegIndex) :
    (x.write i v).read j = if j = i then v else x.read j := by
  by_cases hj : j = 0#5
  · subst hj
    simp [RegFile.read, Ne.symm hi]
  · have hi' := regIndex_toNat_ne_zero hi
    have hj' := regIndex_toNat_ne_zero hj
    have hi32 := i.isLt
    have hj32 := j.isLt
    simp only [RegFile.read, RegFile.write, hi, hj, if_false, Vector.getElem_set]
    by_cases hji : j = i
    · simp [hji]
    · have hne : i.toNat - 1 ≠ j.toNat - 1 := fun h =>
        hji (BitVec.eq_of_toNat_eq (by omega))
      rw [if_neg hne, if_neg hji]

@[simp] theorem RegFile.read_replicate_zero {n : Xlen} (i : RegIndex) :
    RegFile.read (n := n) (Vector.replicate 31 0#_) i = 0#_ := by
  simp [RegFile.read]

@[simp] theorem State.regValue_zero (s : State) : s.regValue 0#5 = 0 := by
  simp [State.regValue, State.readReg]

theorem State.readReg_lt (s : State) (r : RegIndex) : s.regValue r < 2 ^ s.config.xlen.bits :=
  (s.readReg r).isLt

/-- The value of a register after `setReg`. -/
theorem State.setReg_regValue (s : State) {i : RegIndex} (hi : i ≠ 0#5) (v : Word s.config.xlen) (j : RegIndex) :
    (s.setReg i v).regValue j = if j = i then v.toNat else s.regValue j := by
  have h := RegFile.read_write s.x hi v j
  have : ((s.setReg i v).readReg j) = if j = i then v else s.readReg j := h
  simp only [State.regValue, this]
  exact apply_ite BitVec.toNat (j = i) v (s.readReg j)

@[simp] theorem State.fresh_regValue (c : Config) (p : Option Memory) (r : RegIndex) :
    (State.fresh c p).regValue r = 0 := by
  have h : (State.fresh c p).readReg r = 0#_ := RegFile.read_replicate_zero (n := c.xlen) r
  simp [State.regValue, h]

/-- What `setReg` does, in the terms of Safety.lean. -/
theorem State.setReg_writesOnly (s : State) {i : RegIndex} (hi : i ≠ 0#5) (v : Word s.config.xlen) :
    WritesOnly s (s.setReg i v) i v.toNat := by
  refine ⟨⟨rfl, rfl⟩, fun _ => rfl, rfl, rfl, ?_, fun r hr => ?_⟩
  · rw [s.setReg_regValue hi, if_pos rfl]
  · rw [s.setReg_regValue hi, if_neg hr]

/-- What raising a fault does, in the terms of Safety.lean. -/
theorem State.raise_raisesOnly (s : State) (record : FaultRecord) : RaisesOnly s (s.raise record) record :=
  ⟨⟨rfl, rfl⟩, fun _ => rfl, rfl, rfl, fun _ => rfl⟩

end Sys2Proof.Machine
end

