-- ==== Sys2Proof/Laws/Exec.lean ====
section
/-!
SUPPORT. What the execute phase of an instruction can do, said once: it computes a result from its sources and ends with one write
attempt (R80, R84).
-/

namespace Sys2Proof.Machine

/-- The result an instruction computes from its sources (R80, R82, R83). -/
def resultOf (i : Instr) (s : State) : Word s.config.xlen :=
  match i with
  | .addi _ rs1 imm12 => alu .addi (s.operandA rs1) (s.operandImm imm12)
  | .add _ rs1 rs2 => alu .add (s.operandA rs1) (s.operandReg rs2)
  | .sub _ rs1 rs2 => alu .sub (s.operandA rs1) (s.operandReg rs2)
  | .sll _ rs1 rs2 => alu .sll (s.operandA rs1) (s.operandReg rs2)
  | .sltu _ rs1 rs2 => alu .sltu (s.operandA rs1) (s.operandReg rs2)
  | .xor _ rs1 rs2 => alu .xor (s.operandA rs1) (s.operandReg rs2)
  | .srl _ rs1 rs2 => alu .srl (s.operandA rs1) (s.operandReg rs2)
  | .or _ rs1 rs2 => alu .or (s.operandA rs1) (s.operandReg rs2)
  | .and _ rs1 rs2 => alu .and (s.operandA rs1) (s.operandReg rs2)

/-- Every meaning is one write attempt of its result. -/
theorem exec_eq_writeBack (i : Instr) (s : State) : exec i s = .next (s.writeBack i (resultOf i s)) := by
  cases i <;> rfl

/-! ### The three forms of a write attempt (R14, R15) -/

theorem writeBack_of_ne_zero (s : State) {i : Instr} (h : i.rd ≠ 0#5) (r : Word s.config.xlen) :
    s.writeBack i r = s.setReg i.rd r := if_neg h

theorem writeBack_of_fault (s : State) {i : Instr} (h : i.rd = 0#5) (hp : s.config.x0WritePolicy = .fault)
    (r : Word s.config.xlen) : s.writeBack i r = s.raise (.reservedRegisterWrite s.fpc (encode i)) := by
  simp [State.writeBack, h, State.writeRegZero, hp]

theorem writeBack_of_discard (s : State) {i : Instr} (h : i.rd = 0#5) (hp : s.config.x0WritePolicy = .discard)
    (r : Word s.config.xlen) : s.writeBack i r = s := by
  simp [State.writeBack, h, State.writeRegZero, hp]

theorem writeBack_cases (s : State) (i : Instr) (r : Word s.config.xlen) :
    (i.rd ≠ 0#5 ∧ s.writeBack i r = s.setReg i.rd r) ∨
      (i.rd = 0#5 ∧ s.config.x0WritePolicy = .fault ∧
        s.writeBack i r = s.raise (.reservedRegisterWrite s.fpc (encode i))) ∨
      (i.rd = 0#5 ∧ s.config.x0WritePolicy = .discard ∧ s.writeBack i r = s) := by
  by_cases h : i.rd = 0#5
  · cases hp : s.config.x0WritePolicy with
    | fault => exact .inr (.inl ⟨h, rfl, writeBack_of_fault s h hp r⟩)
    | discard => exact .inr (.inr ⟨h, rfl, writeBack_of_discard s h hp r⟩)
  · exact .inl ⟨h, writeBack_of_ne_zero s h r⟩

/-- What a write attempt can never change: the parameters and the pc. -/
theorem writeBack_frame (s : State) (i : Instr) (r : Word s.config.xlen) :
    SameParameters s (s.writeBack i r) ∧ (s.writeBack i r).pc = s.pc := by
  obtain ⟨-, h⟩ | ⟨-, -, h⟩ | ⟨-, -, h⟩ := writeBack_cases s i r <;> rw [h] <;> exact ⟨⟨rfl, rfl⟩, rfl⟩

end Sys2Proof.Machine
end

