-- ==== Sys2Proof/Laws/Memory.lean ====
section
/-!
SUPPORT. The Instruction Buffer: reads after a placed byte, the bytes of an image, and that every operation keeps the canonical
form.
-/

namespace Sys2Proof.Machine

/-- Widening the address range keeps the canonical form. -/
theorem cellsCanonical_mono {lo lo' hi hi' : Nat} (hlo : lo' ≤ lo) (hhi : hi ≤ hi') {cells : List Host.Cell}
    (h : cellsCanonical lo hi cells = true) : cellsCanonical lo' hi' cells = true := by
  induction cells generalizing lo lo' with
  | nil => rfl
  | cons cell rest ih =>
    obtain ⟨a, b⟩ := cell
    simp only [cellsCanonical, Bool.and_eq_true, decide_eq_true_eq] at h ⊢
    obtain ⟨⟨⟨h1, h2⟩, h3⟩, h4⟩ := h
    exact ⟨⟨⟨by omega, by omega⟩, h3⟩, ih (Nat.le_refl _) h4⟩

/-- Cells in canonical form hold nothing below their first address. -/
theorem byteOfCells_of_lt {a lo hi : Nat} {cells : List Host.Cell} (h : cellsCanonical lo hi cells = true)
    (ha : a < lo) : byteOfCells a cells = 0#8 := by
  induction cells generalizing lo with
  | nil => rfl
  | cons cell rest ih =>
    obtain ⟨a', b⟩ := cell
    simp only [cellsCanonical, Bool.and_eq_true, decide_eq_true_eq] at h
    obtain ⟨⟨⟨h1, -⟩, -⟩, h4⟩ := h
    rw [byteOfCells, if_neg (by omega), ih h4 (by omega)]

/-! ### Placing a byte -/

theorem placeCell_canonical {lo hi a : Nat} (b : Byte) {cells : List Host.Cell}
    (h : cellsCanonical lo hi cells = true) (hlo : lo ≤ a) (hhi : a < hi) :
    cellsCanonical lo hi (placeCell a b cells) = true := by
  induction cells generalizing lo with
  | nil => by_cases hb : b = 0#8 <;> simp [placeCell, hb, cellsCanonical, hlo, hhi]
  | cons cell rest ih =>
    obtain ⟨a', b'⟩ := cell
    have h' := h
    simp only [cellsCanonical, Bool.and_eq_true, decide_eq_true_eq] at h'
    obtain ⟨⟨⟨h1, h2⟩, h3⟩, h4⟩ := h'
    simp only [placeCell]
    split
    · split
      · exact h
      · simp only [cellsCanonical, Bool.and_eq_true, decide_eq_true_eq]
        exact ⟨⟨⟨hlo, hhi⟩, ‹_›⟩, ⟨⟨by omega, h2⟩, h3⟩, h4⟩
    · split
      · subst_vars
        split
        · exact cellsCanonical_mono (by omega) (Nat.le_refl _) h4
        · simp only [cellsCanonical, Bool.and_eq_true, decide_eq_true_eq]
          exact ⟨⟨⟨hlo, hhi⟩, ‹_›⟩, h4⟩
      · simp only [cellsCanonical, Bool.and_eq_true, decide_eq_true_eq]
        exact ⟨⟨⟨h1, h2⟩, h3⟩, ih h4 (by omega)⟩

theorem byteOfCells_placeCell {lo hi : Nat} (a a' : Nat) (b : Byte) {cells : List Host.Cell}
    (h : cellsCanonical lo hi cells = true) :
    byteOfCells a' (placeCell a b cells) = if a' = a then b else byteOfCells a' cells := by
  induction cells generalizing lo with
  | nil =>
    by_cases hb : b = 0#8 <;> by_cases ha : a' = a <;> simp [placeCell, byteOfCells, hb, ha]
  | cons cell rest ih =>
    obtain ⟨a1, b1⟩ := cell
    have h' := h
    simp only [cellsCanonical, Bool.and_eq_true, decide_eq_true_eq] at h'
    obtain ⟨⟨⟨h1, h2⟩, h3⟩, h4⟩ := h'
    simp only [placeCell]
    split
    · split
      · by_cases ha : a' = a
        · subst ha
          rw [if_pos rfl, byteOfCells, if_neg (by omega), byteOfCells_of_lt h4 (by omega)]
          exact ‹b = 0#8›.symm
        · rw [if_neg ha]
      · rw [byteOfCells]
    · split
      · subst_vars
        split
        · by_cases ha : a' = a1
          · subst ha
            rw [if_pos rfl, byteOfCells_of_lt h4 (by omega)]
            exact ‹b = 0#8›.symm
          · rw [if_neg ha, byteOfCells, if_neg ha]
        · by_cases ha : a' = a1 <;> simp [byteOfCells, ha]
      · by_cases ha1 : a' = a1
        · subst ha1
          rw [byteOfCells, if_pos rfl, if_neg (by omega), byteOfCells, if_pos rfl]
        · rw [byteOfCells, if_neg ha1, ih h4, byteOfCells, if_neg ha1]

@[simp] theorem Memory.place_len (m : Memory) (a : Nat) (b : Byte) : (m.place a b).len = max m.len (a + 1) := rfl

theorem Memory.place_wf {m : Memory} (h : m.wf = true) (a : Nat) (b : Byte) : (m.place a b).wf = true :=
  placeCell_canonical b (cellsCanonical_mono (Nat.le_refl _) (Nat.le_max_left _ _) h) (Nat.zero_le _)
    (Nat.lt_of_lt_of_le (Nat.lt_succ_self a) (Nat.le_max_right _ _))

theorem Memory.byteAt_place {m : Memory} (h : m.wf = true) (a a' : Nat) (b : Byte) :
    (m.place a b).byteAt a' = if a' = a then b else m.byteAt a' := byteOfCells_placeCell a a' b h

theorem Memory.placeBytes_wf {m : Memory} (h : m.wf = true) (a : Nat) (bytes : List Byte) :
    (m.placeBytes a bytes).wf = true := by
  induction bytes generalizing m a with
  | nil => exact h
  | cons b rest ih => exact ih (Memory.place_wf h a b) (a + 1)

/-- The length after placing bytes: the old one, or the end of the bytes where that is further. -/
theorem Memory.placeBytes_len (m : Memory) (a : Nat) (b : Byte) (bytes : List Byte) :
    (m.placeBytes a (b :: bytes)).len = max m.len (a + bytes.length + 1) := by
  induction bytes generalizing m a b with
  | nil => rfl
  | cons b' rest ih =>
    rw [Memory.placeBytes, ih, Memory.place_len, List.length_cons]
    omega

/-- The bytes after placing bytes: the placed ones where they stand, the old ones elsewhere. -/
theorem Memory.byteAt_placeBytes {m : Memory} (h : m.wf = true) (a a' : Nat) (bytes : List Byte) :
    (m.placeBytes a bytes).byteAt a' =
      if a ≤ a' ∧ a' < a + bytes.length then bytes.getD (a' - a) 0#8 else m.byteAt a' := by
  induction bytes generalizing m a with
  | nil =>
    simp [Memory.placeBytes]
  | cons b rest ih =>
    rw [Memory.placeBytes, ih (Memory.place_wf h a b), Memory.byteAt_place h, List.length_cons]
    by_cases h1 : a' = a
    · subst h1
      rw [if_neg (by omega), if_pos rfl, if_pos (by omega)]
      simp
    · by_cases h2 : a + 1 ≤ a' ∧ a' < a + 1 + rest.length
      · obtain ⟨k, rfl⟩ : ∃ k, a' = a + 1 + k := ⟨a' - (a + 1), by omega⟩
        rw [if_pos h2, if_pos (by omega), show a + 1 + k - a = k + 1 by omega,
          show a + 1 + k - (a + 1) = k by omega, List.getD_cons_succ]
      · rw [if_neg h2, if_neg h1, if_neg (by omega)]

/-! ### The bytes of an image -/

theorem cellsOfBytes_canonical (a : Nat) (bytes : List Byte) :
    cellsCanonical a (a + bytes.length) (cellsOfBytes a bytes) = true := by
  induction bytes generalizing a with
  | nil => rfl
  | cons b rest ih =>
    have hr : cellsCanonical (a + 1) (a + (rest.length + 1)) (cellsOfBytes (a + 1) rest) = true := by
      have := ih (a + 1)
      rwa [show a + 1 + rest.length = a + (rest.length + 1) by omega] at this
    simp only [cellsOfBytes, List.length_cons]
    split
    · exact cellsCanonical_mono (by omega) (Nat.le_refl _) hr
    · simp only [cellsCanonical, Bool.and_eq_true, decide_eq_true_eq]
      exact ⟨⟨⟨Nat.le_refl _, by omega⟩, ‹_›⟩, hr⟩

@[simp] theorem Memory.ofBytes_len (bytes : List Byte) : (Memory.ofBytes bytes).len = bytes.length := rfl

theorem Memory.ofBytes_wf (bytes : List Byte) : (Memory.ofBytes bytes).wf = true := by
  simpa [Memory.wf, Memory.ofBytes] using cellsOfBytes_canonical 0 bytes

theorem byteOfCells_cellsOfBytes (a k : Nat) (bytes : List Byte) :
    byteOfCells (a + k) (cellsOfBytes a bytes) = bytes.getD k 0#8 := by
  induction bytes generalizing a k with
  | nil => simp [cellsOfBytes, byteOfCells]
  | cons b rest ih =>
    cases k with
    | zero =>
      simp only [cellsOfBytes, List.getD_cons_zero]
      split
      · rw [byteOfCells_of_lt (cellsOfBytes_canonical (a + 1) rest) (by omega)]
        exact ‹b = 0#8›.symm
      · simp [byteOfCells]
    | succ k =>
      have h := ih (a + 1) k
      rw [show a + 1 + k = a + (k + 1) by omega] at h
      simp only [cellsOfBytes, List.getD_cons_succ]
      split
      · exact h
      · rw [byteOfCells, if_neg (by omega)]
        exact h

/-- Byte `a` of the buffer of an image is byte `a` of the image. -/
theorem Memory.byteAt_ofBytes (bytes : List Byte) (a : Nat) :
    (Memory.ofBytes bytes).byteAt a = bytes.getD a 0#8 := by
  have h := byteOfCells_cellsOfBytes 0 a bytes
  rwa [Nat.zero_add] at h

theorem Memory.readWord_ofBytes (bytes : List Byte) (a : Nat) :
    (Memory.ofBytes bytes).readWord a =
      assembleWord (bytes.getD a 0#8) (bytes.getD (a + 1) 0#8) (bytes.getD (a + 2) 0#8) (bytes.getD (a + 3) 0#8) := by
  simp only [Memory.readWord, Memory.byteAt_ofBytes]

/-! ### Fetch -/

/-- A fetch answers a word exactly where the precondition of R34 holds. -/
theorem Memory.fetch_eq_some_iff {m : Memory} {a : Nat} {w : InstrWord} :
    m.fetch a = some w ↔ a % 4 = 0 ∧ a + 3 < m.len ∧ m.readWord a = w := by
  simp only [Memory.fetch, Memory.fetchable, decide_eq_true_eq]
  split <;> simp_all

theorem Memory.fetch_eq_none_iff {m : Memory} {a : Nat} :
    m.fetch a = none ↔ ¬(a % 4 = 0 ∧ a + 3 < m.len) := by
  simp only [Memory.fetch, Memory.fetchable, decide_eq_true_eq]
  split <;> simp_all

end Sys2Proof.Machine
end

