-- ==== Sys2Proof/Laws/PerInstr.lean ====
section
/-!
SUPPORT. Statements for all instructions, made per instruction: every instruction is well formed (R77), and its word matches its
row of the opcode table (R58).
-/

namespace Sys2Proof.Laws

/-- A register field's number is one a source line may be written with. -/
theorem registerNumberOk_field (r : RegIndex) : registerNumberOk r.toNat = true := by
  have := r.isLt
  simp only [registerNumberOk, decide_eq_true_eq]
  omega

/-- A 12-bit field's signed value is one a source line may be written with. -/
theorem decimal_field_ok (imm12 : Imm12) : (SourceImm.decimal imm12.toInt).wellFormed = true := by
  have h1 := BitVec.le_toInt imm12
  have h2 := BitVec.toInt_lt (x := imm12)
  simp only [SourceImm.wellFormed, decide_eq_true_eq]
  omega

namespace WellFormedness

/-- Every instruction is well formed: all values of all operand fields are legal (R77). -/
def Statement (i : Instr) : Prop := i.wellFormed = true

theorem addi (rd rs1 : RegIndex) (imm12 : Imm12) : Statement (.addi rd rs1 imm12) := by
  simp [Statement, Instr.wellFormed, Instr.toSource, SourceLine.wellFormed, registerNumberOk_field, decimal_field_ok]

theorem add (rd rs1 rs2 : RegIndex) : Statement (.add rd rs1 rs2) := by
  simp [Statement, Instr.wellFormed, Instr.toSource, SourceLine.wellFormed, registerNumberOk_field, registerFormOk,
    Op.shape]

theorem sub (rd rs1 rs2 : RegIndex) : Statement (.sub rd rs1 rs2) := by
  simp [Statement, Instr.wellFormed, Instr.toSource, SourceLine.wellFormed, registerNumberOk_field, registerFormOk,
    Op.shape]

theorem sll (rd rs1 rs2 : RegIndex) : Statement (.sll rd rs1 rs2) := by
  simp [Statement, Instr.wellFormed, Instr.toSource, SourceLine.wellFormed, registerNumberOk_field, registerFormOk,
    Op.shape]

theorem sltu (rd rs1 rs2 : RegIndex) : Statement (.sltu rd rs1 rs2) := by
  simp [Statement, Instr.wellFormed, Instr.toSource, SourceLine.wellFormed, registerNumberOk_field, registerFormOk,
    Op.shape]

theorem xor (rd rs1 rs2 : RegIndex) : Statement (.xor rd rs1 rs2) := by
  simp [Statement, Instr.wellFormed, Instr.toSource, SourceLine.wellFormed, registerNumberOk_field, registerFormOk,
    Op.shape]

theorem srl (rd rs1 rs2 : RegIndex) : Statement (.srl rd rs1 rs2) := by
  simp [Statement, Instr.wellFormed, Instr.toSource, SourceLine.wellFormed, registerNumberOk_field, registerFormOk,
    Op.shape]

theorem or (rd rs1 rs2 : RegIndex) : Statement (.or rd rs1 rs2) := by
  simp [Statement, Instr.wellFormed, Instr.toSource, SourceLine.wellFormed, registerNumberOk_field, registerFormOk,
    Op.shape]

theorem and (rd rs1 rs2 : RegIndex) : Statement (.and rd rs1 rs2) := by
  simp [Statement, Instr.wellFormed, Instr.toSource, SourceLine.wellFormed, registerNumberOk_field, registerFormOk,
    Op.shape]

end WellFormedness

namespace TableRow

/-- The word of an instruction matches the row of the opcode table that has its operation (R58). -/
def Statement (i : Instr) : Prop := ∃ row ∈ opcodeTable, row.op = i.op ∧ row.matches (encode i) = true

/-- An R-shape word matches the mask and value of its codes. -/
theorem rShape_matches (funct3 : BitVec 3) (funct7 : BitVec 7) (rd rs1 rs2 : RegIndex) :
    encodeRShape funct3 funct7 rd rs1 rs2 &&& 0xFE00707F#32 = encodeRShape funct3 funct7 0 0 0 :=
  (rShape_row_iff _ funct3 funct7).2 ⟨by simp, by simp, by simp⟩

theorem addi (rd rs1 : RegIndex) (imm12 : Imm12) : Statement (.addi rd rs1 imm12) :=
  ⟨⟨.addi, 0x0000707F#32, 0x00000013#32⟩, by decide, rfl,
    decide_eq_true ((iShape_row_iff (encodeIShape rd rs1 imm12)).2 ⟨by simp, by simp⟩)⟩

theorem add (rd rs1 rs2 : RegIndex) : Statement (.add rd rs1 rs2) :=
  ⟨⟨.add, 0xFE00707F#32, 0x00000033#32⟩, by decide, rfl, decide_eq_true (rShape_matches 0 0x00 rd rs1 rs2)⟩

theorem sub (rd rs1 rs2 : RegIndex) : Statement (.sub rd rs1 rs2) :=
  ⟨⟨.sub, 0xFE00707F#32, 0x40000033#32⟩, by decide, rfl, decide_eq_true (rShape_matches 0 0x20 rd rs1 rs2)⟩

theorem sll (rd rs1 rs2 : RegIndex) : Statement (.sll rd rs1 rs2) :=
  ⟨⟨.sll, 0xFE00707F#32, 0x00001033#32⟩, by decide, rfl, decide_eq_true (rShape_matches 1 0x00 rd rs1 rs2)⟩

theorem sltu (rd rs1 rs2 : RegIndex) : Statement (.sltu rd rs1 rs2) :=
  ⟨⟨.sltu, 0xFE00707F#32, 0x00003033#32⟩, by decide, rfl, decide_eq_true (rShape_matches 3 0x00 rd rs1 rs2)⟩

theorem xor (rd rs1 rs2 : RegIndex) : Statement (.xor rd rs1 rs2) :=
  ⟨⟨.xor, 0xFE00707F#32, 0x00004033#32⟩, by decide, rfl, decide_eq_true (rShape_matches 4 0x00 rd rs1 rs2)⟩

theorem srl (rd rs1 rs2 : RegIndex) : Statement (.srl rd rs1 rs2) :=
  ⟨⟨.srl, 0xFE00707F#32, 0x00005033#32⟩, by decide, rfl, decide_eq_true (rShape_matches 5 0x00 rd rs1 rs2)⟩

theorem or (rd rs1 rs2 : RegIndex) : Statement (.or rd rs1 rs2) :=
  ⟨⟨.or, 0xFE00707F#32, 0x00006033#32⟩, by decide, rfl, decide_eq_true (rShape_matches 6 0x00 rd rs1 rs2)⟩

theorem and (rd rs1 rs2 : RegIndex) : Statement (.and rd rs1 rs2) :=
  ⟨⟨.and, 0xFE00707F#32, 0x00007033#32⟩, by decide, rfl, decide_eq_true (rShape_matches 7 0x00 rd rs1 rs2)⟩

end TableRow

end Sys2Proof.Laws
end

