-- ==== Sys2Proof/Laws/Step.lean ====
section
/-!
SUPPORT. What one step can do, said once (R121, R125, R129, R146): its form in each status, and the seven ways it answers a next
state.
-/

namespace Sys2Proof.Machine

variable {s t : State}

/-! ### Status -/

theorem State.status_of_fault {record : FaultRecord} (h : s.fault = some record) : s.status = .faulted := by
  simp [State.status, h]

theorem State.status_of_noProgram (hf : s.fault = none) (hp : s.program = none) : s.status = .noProgram := by
  simp [State.status, hf, hp]

theorem State.status_of_program {m : Memory} (hf : s.fault = none) (hp : s.program = some m) :
    s.status = if s.pc < m.len then .running else .halted := by
  simp [State.status, hf, hp]

/-- Running, spelled out. -/
theorem State.exists_of_running (h : s.status = .running) :
    s.fault = none ∧ ∃ m, s.program = some m ∧ s.pc < m.len := by
  cases hf : s.fault with
  | some record => rw [State.status_of_fault hf] at h; cases h
  | none =>
    cases hp : s.program with
    | none => rw [State.status_of_noProgram hf hp] at h; cases h
    | some m =>
      rw [State.status_of_program hf hp] at h
      split at h
      · exact ⟨rfl, m, rfl, ‹_›⟩
      · cases h

/-! ### The step in each status -/

theorem step_of_fault {record : FaultRecord} (h : s.fault = some record) :
    step s = .fault (.hartFaulted record) := by
  simp [step, sequencer, h]

theorem step_of_noProgram (hf : s.fault = none) (hp : s.program = none) :
    step s = .next (s.raise (.missingProgram s.pc)) := by
  simp [step, sequencer, hf, State.status_of_noProgram hf hp]

theorem step_of_halted (h : s.status = .halted) : step s = .next s := by
  have hf : s.fault = none := by
    cases hf : s.fault with
    | none => rfl
    | some record => rw [State.status_of_fault hf] at h; cases h
  simp [step, sequencer, hf, h]

theorem step_of_running (h : s.status = .running) : step s = cycle s := by
  simp [step, sequencer, (State.exists_of_running h).1, h]

theorem cycle_of_fetch_none (h : s.fetch = none) : cycle s = .next (s.raise (.boundsAlignment s.pc)) := by
  simp [cycle, h]

theorem cycle_of_unknown {w : InstrWord} (h : s.fetch = some w) (hd : decode w = .unknown) :
    cycle s = .next (s.advancePc.raise (.decode s.pc w)) := by
  simp [cycle, h, executeWord, hd]

theorem cycle_of_known {w : InstrWord} {i : Instr} (h : s.fetch = some w) (hd : decode w = .known i) :
    cycle s = exec i s.advancePc := by
  simp [cycle, h, executeWord, hd]

/-! ### The ways a step answers a next state -/

/-- A step that answers a next state did one of these. -/
inductive StepNext (s t : State) : Prop where
  | missingProgram (hf : s.fault = none) (hp : s.program = none)
      (ht : t = s.raise (.missingProgram s.pc))
  | halted (h : s.status = .halted) (ht : t = s)
  | badFetch (h : s.status = .running) (hw : s.fetch = none) (ht : t = s.raise (.boundsAlignment s.pc))
  | unknown (h : s.status = .running) (w : InstrWord) (hw : s.fetch = some w) (hd : decode w = .unknown)
      (ht : t = s.advancePc.raise (.decode s.pc w))
  | write (h : s.status = .running) (w : InstrWord) (i : Instr) (hw : s.fetch = some w)
      (hd : decode w = .known i) (hr : i.rd ≠ 0#5)
      (ht : t = s.advancePc.setReg i.rd (resultOf i s.advancePc))
  | reserved (h : s.status = .running) (w : InstrWord) (i : Instr) (hw : s.fetch = some w)
      (hd : decode w = .known i) (hr : i.rd = 0#5) (hp : s.config.x0WritePolicy = .fault)
      (ht : t = s.advancePc.raise (.reservedRegisterWrite s.pc (encode i)))
  | discarded (h : s.status = .running) (w : InstrWord) (i : Instr) (hw : s.fetch = some w)
      (hd : decode w = .known i) (hr : i.rd = 0#5) (hp : s.config.x0WritePolicy = .discard)
      (ht : t = s.advancePc)

/-- A running hart's step is one of the five forms of a cycle. -/
theorem step_of_running_cases (h : s.status = .running) : ∃ t, step s = .next t ∧ StepNext s t := by
  rw [step_of_running h]
  cases hw : s.fetch with
  | none => exact ⟨_, cycle_of_fetch_none hw, .badFetch h hw rfl⟩
  | some w =>
    cases hd : decode w with
    | unknown => exact ⟨_, cycle_of_unknown hw hd, .unknown h w hw hd rfl⟩
    | known i =>
      refine ⟨_, (cycle_of_known hw hd).trans (exec_eq_writeBack i _), ?_⟩
      obtain ⟨hr, ht⟩ | ⟨hr, hp, ht⟩ | ⟨hr, hp, ht⟩ :=
        writeBack_cases s.advancePc i (resultOf i s.advancePc)
      · exact .write h w i hw hd hr ht
      · exact .reserved h w i hw hd hr hp ht
      · exact .discarded h w i hw hd hr hp ht

theorem step_next_cases (h : step s = .next t) : StepNext s t := by
  cases hf : s.fault with
  | some record => rw [step_of_fault hf] at h; cases h
  | none =>
    cases hp : s.program with
    | none =>
      rw [step_of_noProgram hf hp] at h
      cases h
      exact .missingProgram hf hp rfl
    | some m =>
      have hs := State.status_of_program hf hp
      split at hs
      · obtain ⟨u, hu, hc⟩ := step_of_running_cases hs
        rw [hu] at h
        cases h
        exact hc
      · rw [step_of_halted hs] at h
        cases h
        exact .halted hs rfl

end Sys2Proof.Machine
end

