-- ==== Sys2Proof/Tests/Slice0.lean ====
section
/-!
SUPPORT. Tests of the model. Expected values come from the spec: spec/95_test_vectors.md (its tables V1 to V7, named in the comments)
and the corner cases of the rules. After them, for every obligation with hypotheses, a witness that meets them.
-/

namespace Sys2Proof.Tests

open Sys2Proof.Machine

/-! ### Helpers -/

/-- A hart of width `n` without a program, with the given register values. -/
def hart (n : Xlen) (regs : List (RegIndex × Nat)) : State :=
  regs.foldl (fun s rv => s.setReg rv.1 (BitVec.ofNat _ rv.2)) (State.fresh ⟨n, .fault⟩ none)

/-- A fresh hart of width `n` with a program. -/
def loaded (n : Xlen) (bytes : List Byte) : State := create ⟨n, .fault⟩ (some bytes)

/-- A register of the next state. -/
def regAfter (o : Host.Outcome State Fault Refusal) (r : RegIndex) : Option Nat :=
  match o with
  | .next t => some (t.regValue r)
  | .fault _ => none
  | .refused _ => none

/-- The pc and the fault record of the next state. -/
def pcAndFaultAfter (o : Host.Outcome State Fault Refusal) : Option (Nat × Option FaultRecord) :=
  match o with
  | .next t => some (t.pc, t.fault)
  | .fault _ => none
  | .refused _ => none

/-- The bytes of `ADDI x1, x0, 5` (V7: the word `A`). -/
def bytesA : List Byte := [0x93, 0x00, 0x50, 0x00]

/-! ### WellFormed: each check refuses an ill-formed line (R62) -/

theorem test_wellFormed_accepts : (SourceLine.reg .add 31 0 31).wellFormed = true := by decide
theorem test_wellFormed_refuses_destination : (SourceLine.reg .add 32 0 0).wellFormed = false := by decide
theorem test_wellFormed_refuses_source1 : (SourceLine.reg .add 0 32 0).wellFormed = false := by decide
theorem test_wellFormed_refuses_source2 : (SourceLine.reg .add 0 0 32).wellFormed = false := by decide
theorem test_wellFormed_refuses_shape : (SourceLine.reg .addi 1 0 0).wellFormed = false := by decide
theorem test_wellFormed_refuses_addi_register :
    (SourceLine.addi 32 0 (.decimal 0)).wellFormed = false ∧ (SourceLine.addi 0 32 (.decimal 0)).wellFormed = false := by
  decide
theorem test_wellFormed_refuses_decimal :
    (SourceLine.addi 1 0 (.decimal 2048)).wellFormed = false ∧
      (SourceLine.addi 1 0 (.decimal (-2049))).wellFormed = false := by decide
/-- R63: the mnemonics of other assemblers' pseudo-instructions name nothing. -/
theorem test_no_pseudo_mnemonics :
    Op.ofMnemonic "NOP" = none ∧ Op.ofMnemonic "MV" = none ∧ Op.ofMnemonic "SLTU" = some .sltu := by decide
theorem test_wellFormed_refuses_field : (SourceLine.addi 1 0 (.field 4096)).wellFormed = false := by decide

/-! ### Decode: every constructor's word, written out from the formats of R52 and R53 and the codes of R56 and R57 -/

/-- `imm ++ rs1 ++ funct3 ++ rd ++ opcode` with imm 0x800, rs1 30, rd 1. -/
theorem test_decode_addi :
    decode (0b100000000000#12 ++ 0b11110#5 ++ 0b000#3 ++ 0b00001#5 ++ 0b0010011#7) =
      .known (.addi 1 30 0x800#12) := by decide
/-- `funct7 ++ rs2 ++ rs1 ++ funct3 ++ rd ++ opcode` with rs2 3, rs1 2, rd 1, here and below. -/
theorem test_decode_add :
    decode (0b0000000#7 ++ 0b00011#5 ++ 0b00010#5 ++ 0b000#3 ++ 0b00001#5 ++ 0b0110011#7) =
      .known (.add 1 2 3) := by decide
theorem test_decode_sub :
    decode (0b0100000#7 ++ 0b00011#5 ++ 0b00010#5 ++ 0b000#3 ++ 0b00001#5 ++ 0b0110011#7) =
      .known (.sub 1 2 3) := by decide
theorem test_decode_sll :
    decode (0b0000000#7 ++ 0b00011#5 ++ 0b00010#5 ++ 0b001#3 ++ 0b00001#5 ++ 0b0110011#7) =
      .known (.sll 1 2 3) := by decide
theorem test_decode_sltu :
    decode (0b0000000#7 ++ 0b00011#5 ++ 0b00010#5 ++ 0b011#3 ++ 0b00001#5 ++ 0b0110011#7) =
      .known (.sltu 1 2 3) := by decide
theorem test_decode_xor :
    decode (0b0000000#7 ++ 0b00011#5 ++ 0b00010#5 ++ 0b100#3 ++ 0b00001#5 ++ 0b0110011#7) =
      .known (.xor 1 2 3) := by decide
theorem test_decode_srl :
    decode (0b0000000#7 ++ 0b00011#5 ++ 0b00010#5 ++ 0b101#3 ++ 0b00001#5 ++ 0b0110011#7) =
      .known (.srl 1 2 3) := by decide
theorem test_decode_or :
    decode (0b0000000#7 ++ 0b00011#5 ++ 0b00010#5 ++ 0b110#3 ++ 0b00001#5 ++ 0b0110011#7) =
      .known (.or 1 2 3) := by decide
theorem test_decode_and :
    decode (0b0000000#7 ++ 0b00011#5 ++ 0b00010#5 ++ 0b111#3 ++ 0b00001#5 ++ 0b0110011#7) =
      .known (.and 1 2 3) := by decide

/-- V1: words one code away from an instruction are unknown. -/
theorem test_decode_unknown :
    decode 0x00002033#32 = .unknown ∧ decode 0x40005033#32 = .unknown ∧ decode 0x40001033#32 = .unknown ∧
      decode 0x02000033#32 = .unknown ∧ decode 0x80000033#32 = .unknown ∧ decode 0x00001013#32 = .unknown ∧
      decode 0x00000032#32 = .unknown ∧ decode 0x0000003B#32 = .unknown := by decide

/-- The encoder gives the words V1 and part 3 print. -/
theorem test_encode :
    encode (.addi 31 0 0x7FF#12) = 0x7FF00F93#32 ∧ encode (.sub 4 0 2) = 0x40200233#32 ∧
      encode (.sll 3 1 2) = 0x002091B3#32 ∧ encode (.srl 5 4 2) = 0x002252B3#32 ∧
      encode (.sltu 5 2 1) = 0x001132B3#32 ∧ encode (.and 9 1 2) = 0x0020F4B3#32 := by decide

/-- The decoder on bytes: little-endian, the rest handed back, and nothing from a fragment (R148). -/
theorem test_decodeBytes :
    decodeBytes (bytesA ++ [0x13]) = some (.known (.addi 1 0 5), [0x13]) ∧
      decodeBytes [0x93, 0x00, 0x50] = none := by decide

/-- The rows of the opcode table as the host numbers them. -/
theorem test_decodeTableWord :
    decodeTableWord 32 0x00000013 = some (.addi 0 0 0) ∧ decodeTableWord 32 0x40000033 = some (.sub 0 0 0) ∧
      decodeTableWord 32 0x00007033 = some (.and 0 0 0) ∧ decodeTableWord 32 0x00002033 = none := by decide

/-! ### The nine meanings -/

/-- V3: the row that tells sign extension from zero extension, at both widths. -/
theorem test_addi_sign_extends :
    regAfter (exec (.addi 1 0 0xFFF#12) (hart .w64 [])) 1 = some 0xFFFFFFFFFFFFFFFF ∧
      regAfter (exec (.addi 1 0 0xFFF#12) (hart .w32 [])) 1 = some 0xFFFFFFFF := by decide
/-- V5: `ADDI x1, x1, -1` from 6; R91: the largest positive value plus 1. -/
theorem test_addi_same_register :
    regAfter (exec (.addi 1 1 0xFFF#12) (hart .w32 [(1, 6)])) 1 = some 5 ∧
      regAfter (exec (.addi 1 1 1#12) (hart .w32 [(1, 0x7FFFFFFF)])) 1 = some 0x80000000 := by decide
/-- P3, last row: the sum that separates the widths. -/
theorem test_add_wraps_by_width :
    regAfter (exec (.add 13 7 7) (hart .w32 [(7, 0x80000000)])) 13 = some 0 ∧
      regAfter (exec (.add 13 7 7) (hart .w64 [(7, 0x80000000)])) 13 = some 0x100000000 := by decide
/-- V4 and V5. -/
theorem test_sub_order :
    regAfter (exec (.sub 4 1 2) (hart .w32 [(1, 3), (2, 10)])) 4 = some 0xFFFFFFF9 ∧
      regAfter (exec (.sub 4 0 2) (hart .w64 [(2, 1)])) 4 = some 0xFFFFFFFFFFFFFFFF := by decide
/-- V4: bits shifted past the width are lost; the amount is 5 bits at both widths. -/
theorem test_sll_amount :
    regAfter (exec (.sll 3 1 2) (hart .w32 [(1, 0x80000001), (2, 1)])) 3 = some 2 ∧
      regAfter (exec (.sll 3 1 2) (hart .w64 [(1, 0x80000001), (2, 1)])) 3 = some 0x100000002 ∧
      regAfter (exec (.sll 3 1 2) (hart .w64 [(1, 1), (2, 0x20)])) 3 = some 1 := by decide
/-- V4: logical, not arithmetic; the amount is 5 bits at both widths. -/
theorem test_srl_amount :
    regAfter (exec (.srl 5 4 2) (hart .w32 [(4, 0xFFFFFFFF), (2, 0x25)])) 5 = some 0x07FFFFFF ∧
      regAfter (exec (.srl 5 4 2) (hart .w64 [(4, 0xFFFFFFFFFFFFFFFF), (2, 0x20)])) 5 = some 0xFFFFFFFFFFFFFFFF := by
  decide
/-- R111: values with the top bit set are large; equal operands give 0. -/
theorem test_sltu_unsigned :
    regAfter (exec (.sltu 5 2 1) (hart .w32 [(1, 0xFFFFFFFF), (2, 1)])) 5 = some 1 ∧
      regAfter (exec (.sltu 6 1 2) (hart .w32 [(1, 0xFFFFFFFF), (2, 1)])) 6 = some 0 ∧
      regAfter (exec (.sltu 6 1 1) (hart .w64 [(1, 5), (6, 9)])) 6 = some 0 := by decide
/-- V4, and V5: `XOR x2, x2, x2`. -/
theorem test_xor :
    regAfter (exec (.xor 7 1 2) (hart .w32 [(1, 0x0F0F), (2, 0x00FF)])) 7 = some 0x0FF0 ∧
      regAfter (exec (.xor 2 2 2) (hart .w32 [(2, 3)])) 2 = some 0 := by decide
theorem test_or :
    regAfter (exec (.or 8 1 2) (hart .w64 [(1, 0x8000000000000000), (2, 1)])) 8 = some 0x8000000000000001 ∧
      regAfter (exec (.or 1 1 2) (hart .w32 [(1, 6), (2, 3)])) 1 = some 7 := by decide
theorem test_and :
    regAfter (exec (.and 9 1 2) (hart .w32 [(1, 0x0F0F), (2, 0x00FF)])) 9 = some 0x000F ∧
      regAfter (exec (.and 1 1 2) (hart .w32 [(1, 6), (2, 3)])) 1 = some 2 := by decide

/-- V2, steps 10 and 11, under both policies: nothing is written. -/
theorem test_write_to_zero :
    pcAndFaultAfter (exec (.addi 0 0 7#12) ((hart .w32 []).withPc 4)) =
        some (4, some (.reservedRegisterWrite 0 0x00700013#32)) ∧
      pcAndFaultAfter (exec (.addi 0 0 7#12) ((hart .w32 []).withPolicy .discard)) = some (0, none) ∧
      regAfter (exec (.addi 0 0 7#12) (hart .w32 [])) 0 = some 0 := by decide

/-! ### One step (V6, V7) -/

/-- V6: every instruction with rd = 0, as the first word. -/
theorem test_step_rd_zero :
    ∀ w ∈ [0x00000013, 0x80000013, 0x00000033, 0x40000033, 0x00629033, 0x0062B033, 0x0062C033, 0x0062D033,
        0x0062E033, 0x0062F033],
      pcAndFaultAfter (step (State.reset.withFetchWord 32 w)) =
        some (4, some (.reservedRegisterWrite 0 (BitVec.ofNat 32 w))) := by decide
/-- V7: the word `A` alone. -/
theorem test_step_runs_first_word :
    pcAndFaultAfter (step (loaded .w32 bytesA)) = some (4, none) ∧
      regAfter (step (loaded .w32 bytesA)) 1 = some 5 ∧ regAfter (step (loaded .w32 bytesA)) 2 = some 0 := by decide
/-- V7: programs of 1 and 3 bytes. -/
theorem test_step_bounds :
    pcAndFaultAfter (step (loaded .w32 [0x93])) = some (0, some (.boundsAlignment 0)) ∧
      pcAndFaultAfter (step (loaded .w32 [0x93, 0x00, 0x50])) = some (0, some (.boundsAlignment 0)) := by decide
/-- V7: the stray bytes after the last complete word. -/
theorem test_step_trailing_fragment :
    pcAndFaultAfter (step ((loaded .w32 (bytesA ++ [0x13, 0x01])).withPc 4)) = some (4, some (.boundsAlignment 4)) := by
  decide
/-- V7: an unknown word; the priority instance; the big-endian spelling of `A`. -/
theorem test_step_unknown :
    pcAndFaultAfter (step (loaded .w32 [0, 0, 0, 0])) = some (4, some (.decode 0 0#32)) ∧
      pcAndFaultAfter (step (loaded .w32 [0x33, 0x20, 0x00, 0x00])) = some (4, some (.decode 0 0x00002033#32)) ∧
      pcAndFaultAfter (step (loaded .w32 [0x00, 0x50, 0x00, 0x93])) = some (4, some (.decode 0 0x93005000#32)) := by
  decide
/-- V7: no program; P7: the empty program. -/
theorem test_step_without_words :
    pcAndFaultAfter (step State.reset) = some (0, some (.missingProgram 0)) ∧
      pcAndFaultAfter (step (loaded .w32 [])) = some (0, none) := by decide
/-- A misaligned pc, which no run reaches (R20), is never rounded (R34). -/
theorem test_step_misaligned :
    pcAndFaultAfter (step ((loaded .w32 (bytesA ++ bytesA)).withPc 2)) = some (2, some (.boundsAlignment 2)) := by decide
/-- R145. -/
theorem test_fault_codes :
    [FaultKind.boundsAlignment, .decode, .reservedRegisterWrite, .missingProgram].map FaultKind.code = [0, 1, 2, 3] := by
  decide
/-- The canonical form: a 0 byte is not listed, and placing a 0 removes the entry. -/
theorem test_memory_canonical :
    (Memory.ofBytes bytesA).cells = [(0, 0x93), (2, 0x50)] ∧
      ((Memory.ofBytes bytesA).place 0 0#8).cells = [(2, 0x50)] ∧ (Memory.ofBytes bytesA).wf = true := by decide

/-! ### Witnesses: for every obligation with hypotheses, values that meet them, one clause each -/

/-- A 32-bit hart with the program `A`, before its first step. -/
def ready : State := loaded .w32 bytesA
/-- A 32-bit hart at the first word `00 00 20 33`, which is unknown. -/
def atUnknown : State := loaded .w32 [0x33, 0x20, 0x00, 0x00]
/-- A 32-bit hart at `ADDI x0, x0, 0`. -/
def atRdZero : State := loaded .w32 [0x13, 0x00, 0x00, 0x00]
/-- A 32-bit hart at the two stray bytes of a 6-byte program (P6). -/
def atFragment : State := (loaded .w32 (bytesA ++ [0x13, 0x01])).withPc 4
/-- A hart whose run has ended: `A` executed. -/
def done : State := ready.withPc 4
/-- A faulted hart. -/
def stopped : State := ready.raise (.boundsAlignment 0)

/-- A hart without a fault and with a program meets the invariant when its memory is canonical and its pc is aligned and within the
program. -/
theorem inv_of_program {s : State} {m : Memory} (hp : s.program = some m) (hf : s.fault = none) (hw : m.wf = true)
    (ha : s.pc % 4 = 0) (hb : s.pc ≤ m.len) : Inv s where
  memory := by rw [State.memoryWf, hp]; exact hw
  aligned := ha
  bounded := by rintro m' h; rw [hp] at h; cases h; exact hb
  noProgram := by rw [hp]; rintro ⟨⟩
  fault := by rw [hf]; rintro r ⟨⟩

theorem reset_inv : Inv State.reset where
  memory := rfl
  aligned := rfl
  bounded := by rintro m ⟨⟩
  noProgram := fun _ => ⟨rfl, fun r => State.fresh_regValue _ _ r⟩
  fault := by rintro r ⟨⟩

theorem witness_CreatedHartHoldsResetValues :
    (none : Option (List Byte)) = none ∧ some bytesA = some bytesA ∧ 0 < bytesA.length ∧ ([] : List Byte).length = 0 := by
  decide
theorem witness_BufferHoldsImageBytes : 3 < bytesA.length ∧ bytesA.length ≤ 4 := by decide
/-- The last word that fits: `a + 4 = LEN`. -/
theorem witness_FetchAssemblesLittleEndian :
    (0 % 4 = 0 ∧ 0 + 4 ≤ (Memory.ofBytes bytesA).len) ∧ ¬(1 % 4 = 0 ∧ 1 + 4 ≤ (Memory.ofBytes bytesA).len) ∧
      ¬(4 % 4 = 0 ∧ 4 + 4 ≤ (Memory.ofBytes bytesA).len) := by decide
theorem witness_FailedFetchRaisesBoundsAlignment_step :
    atFragment.fault = none ∧ atFragment.program = some (Memory.ofBytes (bytesA ++ [0x13, 0x01])) ∧
      atFragment.pc < (Memory.ofBytes (bytesA ++ [0x13, 0x01])).len ∧
      ¬(atFragment.pc % 4 = 0 ∧ atFragment.pc + 3 ≤ (Memory.ofBytes (bytesA ++ [0x13, 0x01])).len - 1) := by decide
theorem witness_FailedFetchRaisesBoundsAlignment_inv :
    Inv atFragment ∧ atFragment.fault = none ∧ atFragment.program = some (Memory.ofBytes (bytesA ++ [0x13, 0x01])) ∧
      atFragment.pc < (Memory.ofBytes (bytesA ++ [0x13, 0x01])).len :=
  ⟨inv_of_program rfl rfl (by decide) (by decide) (by decide), by decide⟩
theorem witness_FailedFetchRaisesBoundsAlignment_run :
    (∀ i ∈ [Instr.addi 1 0 5], (⟨.w32, .fault⟩ : Config).x0WritePolicy = .fault → i.rd ≠ 0#5) ∧
      1 ≤ [(0x13 : Byte)].length ∧ [(0x13 : Byte), 0x01, 0x02].length ≤ 3 := by decide
theorem witness_FailedFetchRaisesBoundsAlignment_short :
    (1 ≤ [(0x93 : Byte)].length ∧ [(0x93 : Byte)].length ≤ 3) ∧
      (1 ≤ [(0x93 : Byte), 0, 0x50].length ∧ [(0x93 : Byte), 0, 0x50].length ≤ 3) := by decide
/-- Both ends of the index range. -/
theorem witness_RegisterReadGivesZeroOrStoredValue :
    (1#5).toNat = (0 : Fin 31).val + 1 ∧ (31#5).toNat = (30 : Fin 31).val + 1 := by decide
theorem witness_RegisterWriteIsVisibleAndIsolated :
    (Instr.add 31 1 2).rd ≠ 0#5 ∧ (Instr.add 0 1 2).rd = 0#5 ∧ ready.config.x0WritePolicy = .fault := by decide
theorem witness_DiscardPolicyDropsRegisterZeroWrite_exec :
    (ready.withPolicy .discard).config.x0WritePolicy = .discard ∧ (Instr.addi 0 0 0).rd = 0#5 := by decide
theorem witness_DiscardPolicyDropsRegisterZeroWrite_never :
    (atRdZero.withPolicy .discard).config.x0WritePolicy = .discard ∧
      ∃ t, step (atRdZero.withPolicy .discard) = .next t := ⟨by decide, _, rfl⟩
theorem witness_DiscardPolicyDropsRegisterZeroWrite_same :
    ∃ t, step (ready.withPolicy .fault) = .next t ∧
      ∀ fpc word, t.fault ≠ some (.reservedRegisterWrite fpc word) :=
  ⟨_, rfl, by intro fpc word h; exact absurd h (by intro h; cases h)⟩
theorem witness_DiscardPolicyDropsRegisterZeroWrite_goesOn :
    ∃ t, step (atRdZero.withPolicy .fault) = .next t ∧
      t.fault = some (.reservedRegisterWrite 0 0x00000013#32) := ⟨_, rfl, by decide⟩

theorem witness_AddiWritesSumWithSignExtendedImmediate :
    31#5 ≠ 0#5 ∧ 0#5 = 0#5 ∧ ready.config.x0WritePolicy = .fault ∧ decode 0x00500093#32 = .known (.addi 1 0 5) := by
  decide
theorem witness_AddWritesWrappedSum :
    31#5 ≠ 0#5 ∧ 0#5 = 0#5 ∧ ready.config.x0WritePolicy = .fault ∧ decode 0x00108133#32 = .known (.add 2 1 1) := by
  decide
theorem witness_SubWritesWrappedDifference :
    31#5 ≠ 0#5 ∧ 0#5 = 0#5 ∧ ready.config.x0WritePolicy = .fault ∧ decode 0x40200233#32 = .known (.sub 4 0 2) := by
  decide
theorem witness_SllWritesShiftedProduct :
    31#5 ≠ 0#5 ∧ 0#5 = 0#5 ∧ ready.config.x0WritePolicy = .fault ∧ decode 0x002091B3#32 = .known (.sll 3 1 2) := by
  decide
theorem witness_SrlWritesFloorQuotient :
    31#5 ≠ 0#5 ∧ 0#5 = 0#5 ∧ ready.config.x0WritePolicy = .fault ∧ decode 0x002252B3#32 = .known (.srl 5 4 2) := by
  decide
theorem witness_SltuWritesUnsignedComparison :
    31#5 ≠ 0#5 ∧ 0#5 = 0#5 ∧ ready.config.x0WritePolicy = .fault ∧ decode 0x001132B3#32 = .known (.sltu 5 2 1) := by
  decide
theorem witness_XorWritesBitwiseExclusiveOr :
    31#5 ≠ 0#5 ∧ 0#5 = 0#5 ∧ ready.config.x0WritePolicy = .fault ∧ decode 0x0020C3B3#32 = .known (.xor 7 1 2) ∧
      31 < ready.config.xlen.bits := by decide
theorem witness_OrWritesBitwiseInclusiveOr :
    31#5 ≠ 0#5 ∧ 0#5 = 0#5 ∧ ready.config.x0WritePolicy = .fault ∧ decode 0x0023E433#32 = .known (.or 8 7 2) ∧
      31 < ready.config.xlen.bits := by decide
theorem witness_AndWritesBitwiseAnd :
    31#5 ≠ 0#5 ∧ 0#5 = 0#5 ∧ ready.config.x0WritePolicy = .fault ∧ decode 0x0020F4B3#32 = .known (.and 9 1 2) ∧
      31 < ready.config.xlen.bits := by decide
/-- Two harts that agree on the sources and on nothing else that differs here. -/
theorem witness_ResultDependsOnSourcesOnly :
    (hart .w32 [(1, 6), (2, 3), (3, 9)]).config = ((hart .w32 [(1, 6), (2, 3)]).withPc 8).config ∧
      ∀ r ∈ (Instr.sub 4 1 2).sources,
        (hart .w32 [(1, 6), (2, 3), (3, 9)]).regValue r = ((hart .w32 [(1, 6), (2, 3)]).withPc 8).regValue r := by decide
theorem witness_AddAndSubWrapForBothReadings :
    (Instr.addi 1 2 3).op = .addi ∧ (Instr.add 1 2 3).op = .add ∧ (Instr.sub 1 2 3).op = .sub ∧
      (Instr.sub 1 2 3).rd ≠ 0#5 := by decide
theorem witness_ShiftAmountIsLowFiveBits :
    ∀ k, k < 5 → (BitVec.ofNat 64 37).getLsbD k = (BitVec.ofNat 64 5).getLsbD k := by decide
theorem witness_BitwiseResultBitsAreIndependent :
    (1#32).getLsbD 0 = (3#32).getLsbD 0 ∧ (2#32).getLsbD 0 = (0#32).getLsbD 0 ∧ 1 ≤ 31 ∧
      (Instr.sltu 1 2 3).op = .sltu ∧ (Instr.xor 1 2 3).op = .xor ∧ (Instr.or 1 2 3).op = .or ∧
      (Instr.and 1 2 3).op = .and ∧ (Instr.and 1 2 3).rd ≠ 0#5 := by decide

theorem witness_DecodeOfEncodeIsIdentity :
    (Instr.addi 31 31 0x800#12).wellFormed = true ∧ (Instr.sub 31 31 31).wellFormed = true := by decide
theorem witness_EncodeOfDecodeIsIdentity : decode 0x41FF8FB3#32 = .known (.sub 31 31 31) := by decide
theorem witness_EncodingIsSumOfPlacedFields :
    (Instr.and 31 31 31, 7, 0) ∈
        [(Instr.add 31 31 31, 0, 0), (Instr.sub 31 31 31, 0, 0x20), (Instr.sll 31 31 31, 1, 0),
         (Instr.sltu 31 31 31, 3, 0), (Instr.xor 31 31 31, 4, 0), (Instr.srl 31 31 31, 5, 0),
         (Instr.or 31 31 31, 6, 0), (Instr.and 31 31 31, 7, 0)] ∧
      ((-2048 : Int) ≤ -2048 ∧ (-2048 : Int) ≤ -1) ∧ ((-2048 : Int) ≤ -1 ∧ (-1 : Int) ≤ -1) := by decide
theorem witness_DecoderAgreesWithOpcodeTable :
    (⟨.addi, 0x0000707F#32, 0x00000013#32⟩ : OpcodeRow) ∈ opcodeTable ∧
      (⟨.addi, 0x0000707F#32, 0x00000013#32⟩ : OpcodeRow).matches 0xFFF00093#32 = true ∧
      (⟨.sub, 0xFE00707F#32, 0x40000033#32⟩ : OpcodeRow) ∈ opcodeTable ∧
      (⟨.sub, 0xFE00707F#32, 0x40000033#32⟩ : OpcodeRow).matches 0x41FF8FB3#32 = true ∧ Op.sub ≠ .addi := by decide
theorem witness_KnownWordsAreDisjointAndCounted :
    (⟨.sub, 0xFE00707F#32, 0x40000033#32⟩ : OpcodeRow) ∈ opcodeTable ∧
      (⟨.sub, 0xFE00707F#32, 0x40000033#32⟩ : OpcodeRow).matches 0x40000033#32 = true := by decide
theorem witness_OperationAndCodesDetermineEachOther :
    decode 0x00108133#32 = .known (.add 2 1 1) ∧ decode 0x40200233#32 = .known (.sub 4 0 2) := by decide
theorem witness_SourceLinesAssemble : 4095 ≤ 4095 ∧ 31 ≤ 31 ∧ 0 ≤ 31 := by decide

theorem witness_StepExecutesDecodedInstruction :
    ready.status = .running ∧ ready.fetch = some 0x00500093#32 ∧ decode 0x00500093#32 = .known (.addi 1 0 5) := by
  decide
/-- A failing fetch, an unknown word, an instruction: each at the boundary of the program. -/
theorem witness_RunningStepFetchesAdvancesDecodesExecutes :
    (atFragment.fault = none ∧ atFragment.program = some (Memory.ofBytes (bytesA ++ [0x13, 0x01])) ∧
      atFragment.pc < 6 ∧ (atFragment.pc % 4 ≠ 0 ∨ atFragment.pc + 3 > 6 - 1)) ∧
    (atUnknown.fault = none ∧ atUnknown.program = some (Memory.ofBytes [0x33, 0x20, 0x00, 0x00]) ∧
      atUnknown.pc % 4 = 0 ∧ atUnknown.pc + 3 ≤ 4 - 1 ∧
      decode ((Memory.ofBytes [0x33, 0x20, 0x00, 0x00]).readWord atUnknown.pc) = .unknown) ∧
    (ready.fault = none ∧ ready.program = some (Memory.ofBytes bytesA) ∧ ready.pc + 3 ≤ 4 - 1 ∧
      decode ((Memory.ofBytes bytesA).readWord ready.pc) = .known (.addi 1 0 5)) := by decide
theorem witness_RunningStepFetchesAdvancesDecodesExecutes_notRunning :
    (State.reset.status ≠ .running ∧ ∃ t, step State.reset = .next t) ∧
      (done.status ≠ .running ∧ ∃ t, step done = .next t) := ⟨⟨by decide, _, rfl⟩, by decide, _, rfl⟩
theorem witness_PcAdvancesByFourUnconditionally :
    (atUnknown.status = .running ∧ atUnknown.fetch = some 0x00002033#32) ∧
      (∃ t, exec (.add 1 2 3) ready = .next t) ∧ (∃ t, step ready = .next t) ∧
      (ready.program = some (Memory.ofBytes bytesA) ∧ ready.fetch ≠ none ∧ (Memory.ofBytes bytesA).len ≤ 2 ^ 3 - 1) :=
  ⟨by decide, ⟨_, rfl⟩, ⟨_, rfl⟩, by decide⟩
theorem witness_ProgramIsImmutable :
    (∃ t, step ready = .next t) ∧ (∃ t, exec (.sub 1 2 3) ready = .next t) ∧ ∃ t, run ready = .next t :=
  ⟨⟨_, rfl⟩, ⟨_, rfl⟩, ⟨_, rfl⟩⟩
theorem witness_PlacedWordIsFetchedNext :
    (State.reset.pc % 4 = 0 ∧ State.reset.memoryWf = true) ∧ (done.pc % 4 = 0 ∧ done.memoryWf = true) := by decide

theorem witness_UnknownWordRaisesDecode :
    atUnknown.status = .running ∧ atUnknown.fetch = some 0x00002033#32 ∧
      ∀ row ∈ opcodeTable, 0x00002033#32 &&& row.mask ≠ row.value := by decide
theorem witness_RegisterZeroDestinationRaises :
    atRdZero.status = .running ∧ atRdZero.fetch = some 0x00000013#32 ∧
      decode 0x00000013#32 = .known (.addi 0 0 0) ∧ (Instr.addi 0 0 0).rd = 0#5 ∧
      atRdZero.config.x0WritePolicy = .fault := by decide
theorem witness_StatusFollowsFaultProgramAndPc :
    (Inv done ∧ done.status = .halted) ∧ (Inv (loaded .w32 []) ∧ (loaded .w32 []).status = .halted) :=
  ⟨⟨inv_of_program (m := Memory.ofBytes bytesA) rfl rfl (by decide) (by decide) (by decide), by decide⟩,
    ⟨inv_of_program (m := Memory.ofBytes []) rfl rfl (by decide) (by decide) (by decide), by decide⟩⟩
theorem witness_FaultRecordIsSetOnce :
    stopped.fault = some (.boundsAlignment 0) ∧ Host.Core.run Sys2Proof.core 0 stopped = .next stopped ∧
      run stopped = .next stopped := ⟨by decide, rfl, rfl⟩
theorem witness_FaultLeavesStateOfTable_boundsAlignment :
    Inv atFragment ∧ atFragment.fault = none ∧
      ∃ t, step atFragment = .next t ∧ t.fault = some (.boundsAlignment 4) :=
  ⟨inv_of_program (m := Memory.ofBytes (bytesA ++ [0x13, 0x01])) rfl rfl (by decide) (by decide) (by decide), rfl,
    _, rfl, by decide⟩
theorem witness_FaultLeavesStateOfTable_decode :
    Inv atUnknown ∧ atUnknown.fault = none ∧
      ∃ t, step atUnknown = .next t ∧ t.fault = some (.decode 0 0x00002033#32) :=
  ⟨inv_of_program (m := Memory.ofBytes [0x33, 0x20, 0x00, 0x00]) rfl rfl (by decide) (by decide) (by decide), rfl,
    _, rfl, by decide⟩
theorem witness_FaultLeavesStateOfTable_reservedRegisterWrite :
    Inv atRdZero ∧ atRdZero.fault = none ∧
      ∃ t, step atRdZero = .next t ∧ t.fault = some (.reservedRegisterWrite 0 0x00000013#32) :=
  ⟨inv_of_program (m := Memory.ofBytes [0x13, 0x00, 0x00, 0x00]) rfl rfl (by decide) (by decide) (by decide), rfl,
    _, rfl, by decide⟩
theorem witness_FaultLeavesStateOfTable_missingProgram :
    Inv State.reset ∧ State.reset.fault = none ∧
      ∃ t, step State.reset = .next t ∧ t.fault = some (.missingProgram 0) := ⟨reset_inv, rfl, _, rfl, by decide⟩
theorem witness_FaultsAreDetectedInStepOrder :
    (ready.fault = none ∧ ready.program = some (Memory.ofBytes bytesA) ∧ ready.pc < (Memory.ofBytes bytesA).len) ∧
      (State.reset.fault = none ∧ State.reset.program = none) := by decide

theorem witness_StepKeepsInvariant :
    (Inv ready ∧ ∃ t, step ready = .next t) ∧ (Inv State.reset ∧ ∃ t, step State.reset = .next t) :=
  ⟨⟨inv_of_program (m := Memory.ofBytes bytesA) rfl rfl (by decide) (by decide) (by decide), _, rfl⟩,
    reset_inv, _, rfl⟩
/-- `LEN = 4` fits a 3-bit pc and no narrower one. -/
theorem witness_ReachedPcIsAlignedBoundedAndNeverWraps :
    (∃ t, Host.Core.run Sys2Proof.core 1 (create ⟨.w32, .fault⟩ (some bytesA)) = .next t) ∧
      bytesA.length ≤ 2 ^ 3 - 1 ∧ ready.fetch ≠ none := ⟨⟨_, rfl⟩, by decide⟩
theorem witness_RunOnTerminalHartChangesNothing : done.status = .halted ∧ stopped.status = .faulted := by decide
theorem witness_EveryRunEndsAndStraightLineCodeCompletes :
    ready.status = .running ∧
      (∀ i ∈ [Instr.addi 1 0 5, .add 2 1 1], (⟨.w32, .fault⟩ : Config).x0WritePolicy = .fault → i.rd ≠ 0#5) ∧
      (∀ i ∈ [Instr.addi 0 0 0], (⟨.w32, .discard⟩ : Config).x0WritePolicy = .fault → i.rd ≠ 0#5) := by decide
/-- One instruction, then an unknown word. -/
theorem witness_FaultsArePrecise :
    (∀ i ∈ [Instr.addi 1 0 5], (⟨.w32, .fault⟩ : Config).x0WritePolicy = .fault → i.rd ≠ 0#5) ∧
      ∃ t, run (create ⟨.w32, .fault⟩ (some (imageOf [.addi 1 0 5] ++ [0x33, 0x20, 0x00, 0x00]))) = .next t ∧
        t.fault = some (.decode 4 0x00002033#32) ∧
        (FaultRecord.decode 4 0x00002033#32).fpc = 4 * [Instr.addi 1 0 5].length :=
  ⟨by decide, _, rfl, by decide, rfl⟩
theorem witness_RunHaltsExactlyForRunnableImages :
    Runnable ⟨.w32, .fault⟩ bytesA ∧
      ∃ t, run (create ⟨.w32, .fault⟩ (some [0x93])) = .next t ∧ t.status ≠ .halted :=
  ⟨⟨by decide, fun k hk => ⟨.addi 1 0 5, by
      obtain rfl : k = 0 := by simp only [bytesA, List.length_cons, List.length_nil] at hk; omega
      decide, fun _ => by decide⟩⟩, _, rfl, by decide⟩
theorem witness_InspectionGivesAllRegisters :
    done.status = .halted ∧ stopped.status = .faulted ∧ ready.status = .running := by decide

/-- Both ends of the range of a small constant, and the usual `nop`. -/
theorem witness_CopiesAndConstantsAreOrdinaryInstructions :
    31#5 ≠ 0#5 ∧ ((-2048 : Int) ≤ -2048 ∧ (-2048 : Int) ≤ 2047) ∧ ((-2048 : Int) ≤ 2047 ∧ (2047 : Int) ≤ 2047) ∧
      SourceLine.usualNop.assemble = some (.addi 0 0 0) ∧ (Instr.addi 0 0 0).rd = 0#5 ∧
      ready.config.x0WritePolicy = .fault := by decide

end Sys2Proof.Tests
end

section
/-!
PROOFS, 00_scope.md. What the addresses of a buffer made from an image hold (R4, R30), and the obligation that says so of a
created hart.
-/

namespace Sys2Proof.Machine

/-- PROGRAM of a created hart is the buffer of the image it was created with (R4, R170). -/
@[simp] theorem create_program (c : Config) (image : Option (List Byte)) :
    (create c image).program = image.map Memory.ofBytes := rfl

/-- An image's buffer is the image: one byte of it at each address below its length, nothing above (R4, R30). -/
theorem Memory.read_ofBytes (bytes : List Byte) (a : Nat) : (Memory.ofBytes bytes).read a = bytes[a]? := by
  rw [Memory.read, Memory.ofBytes_len, Memory.byteAt_ofBytes]
  split
  case isTrue h => rw [List.getD_eq_getElem _ _ h, List.getElem?_eq_getElem h]
  case isFalse h => rw [List.getElem?_eq_none (Nat.le_of_not_lt h)]

end Sys2Proof.Machine

namespace Sys2Proof

open Machine

/-- Settles O3: the buffer is `Memory.ofBytes` of the image, which reads at every address as the list does. -/
theorem bufferHoldsImageBytes : Obligations.BufferHoldsImageBytes := by
  intro c bytes
  refine ⟨Memory.ofBytes bytes, create_program c (some bytes), Memory.ofBytes_len bytes, Memory.ofBytes_wf bytes, ?_, ?_⟩
  · intro a h
    rw [Memory.read_ofBytes, List.getElem?_eq_getElem h]
  · intro a h
    rw [Memory.read_ofBytes, List.getElem?_eq_none h]

end Sys2Proof
end

section
/-!
PROOFS, 10_state.md. Register reads and writes (R13 to R17), the status (R22), the fault record (R21), the two policies
of register 0 (R14, R15), and the invariant of a hart (R20, R147) from creation along every run.
-/

namespace Sys2Proof

/-! ### A known word is its instruction's encoding (R52, R53) -/

theorem encode_of_decodeRShape {funct3 : BitVec 3} {funct7 : BitVec 7} {rd rs1 rs2 : RegIndex} {i : Instr}
    (h : decodeRShape funct3 funct7 rd rs1 rs2 = .known i) : encode i = encodeRShape funct3 funct7 rd rs1 rs2 := by
  unfold decodeRShape at h
  split at h <;> cases h <;> rfl

/-- The word a Reserved-Register-Write record takes from the instruction is the fetched one (R24, R143). -/
theorem encode_of_decode {w : InstrWord} {i : Instr} (h : decode w = .known i) : encode i = w := by
  unfold decode at h
  split at h
  case isTrue ho =>
    unfold decodeIShape at h
    split at h
    case isTrue h3 =>
      cases h
      exact encodeIShape_fields ho h3
    case isFalse => cases h
  case isFalse =>
    split at h
    case isTrue ho => rw [encode_of_decodeRShape h, encodeRShape_fields ho]
    case isFalse => cases h

end Sys2Proof

namespace Sys2Proof.Machine

variable {s t : State}

/-! ### Registers (R13, R17) -/

/-- Index `k + 1` reads the stored register at position `k`. -/
theorem State.readReg_of_toNat (s : State) {i : RegIndex} {k : Fin 31} (h : i.toNat = k.val + 1) :
    s.readReg i = s.x[k] := by
  have hi : i ≠ 0#5 := by
    rintro rfl
    simp at h
  simp [State.readReg, RegFile.read, hi, h]

@[simp] theorem create_readReg (c : Config) (image : Option (List Byte)) (i : RegIndex) :
    (create c image).readReg i = 0#_ := RegFile.read_replicate_zero (n := c.xlen) i

theorem inspect_of_terminal (h : s.status = .halted ∨ s.status = .faulted) :
    inspect s = some ((List.range 32).map fun i => s.readReg (BitVec.ofNat 5 i)) := by
  obtain h | h := h <;> simp [inspect, h]

/-! ### Status (R22) -/

/-- The four cases of the status function, each with what it says of fault record, program, pc and LEN. -/
theorem State.status_cases (s : State) :
    (∃ record, s.fault = some record ∧ s.status = .faulted) ∨
      (s.fault = none ∧ s.program = none ∧ s.status = .noProgram) ∨
      (s.fault = none ∧ ∃ m, s.program = some m ∧ s.pc < m.len ∧ s.status = .running) ∨
      (s.fault = none ∧ ∃ m, s.program = some m ∧ m.len ≤ s.pc ∧ s.status = .halted) := by
  cases hf : s.fault with
  | some record => exact .inl ⟨record, rfl, State.status_of_fault hf⟩
  | none =>
    cases hp : s.program with
    | none => exact .inr (.inl ⟨rfl, rfl, State.status_of_noProgram hf hp⟩)
    | some m =>
      have hs := State.status_of_program hf hp
      split at hs
      case isTrue hlt => exact .inr (.inr (.inl ⟨rfl, m, rfl, hlt, hs⟩))
      case isFalse hge => exact .inr (.inr (.inr ⟨rfl, m, rfl, Nat.le_of_not_lt hge, hs⟩))

theorem State.status_eq_faulted_iff : s.status = .faulted ↔ s.fault ≠ none := by
  obtain ⟨record, hf, hs⟩ | ⟨hf, -, hs⟩ | ⟨hf, m, -, -, hs⟩ | ⟨hf, m, -, -, hs⟩ := s.status_cases <;>
    simp [hf, hs]

theorem State.status_eq_noProgram_iff : s.status = .noProgram ↔ s.fault = none ∧ s.program = none := by
  obtain ⟨record, hf, hs⟩ | ⟨hf, hp, hs⟩ | ⟨hf, m, hp, -, hs⟩ | ⟨hf, m, hp, -, hs⟩ := s.status_cases <;>
    simp [*]

theorem State.status_eq_running_iff :
    s.status = .running ↔ s.fault = none ∧ ∃ m, s.program = some m ∧ s.pc < m.len := by
  refine ⟨State.exists_of_running, ?_⟩
  rintro ⟨hf, m, hp, hlt⟩
  rw [State.status_of_program hf hp, if_pos hlt]

theorem State.status_eq_halted_iff :
    s.status = .halted ↔ s.fault = none ∧ ∃ m, s.program = some m ∧ m.len ≤ s.pc := by
  obtain ⟨record, hf, hs⟩ | ⟨hf, hp, hs⟩ | ⟨hf, m, hp, hlt, hs⟩ | ⟨hf, m, hp, hle, hs⟩ := s.status_cases <;>
    simp [*]

/-! ### Fetch (R122) -/

theorem State.fetch_of_program {m : Memory} (hp : s.program = some m) : s.fetch = m.fetch s.pc := by
  simp [State.fetch, hp]

/-- A successful fetch: the program is there, and it is the program's word at the pc. -/
theorem State.exists_of_fetch {w : InstrWord} (h : s.fetch = some w) :
    ∃ m, s.program = some m ∧ m.fetch s.pc = some w := by
  cases hp : s.program with
  | none => simp [State.fetch, hp] at h
  | some m => exact ⟨m, rfl, (State.fetch_of_program hp).symm.trans h⟩

/-- Where a fetch succeeds, all four bytes of the word are below LEN (R34). -/
theorem State.pc_add_four_le_of_fetch {m : Memory} (hp : s.program = some m) (h : s.fetch ≠ none) :
    s.pc + 4 ≤ m.len := by
  obtain ⟨w, hw⟩ := Option.ne_none_iff_exists'.mp h
  rw [State.fetch_of_program hp] at hw
  obtain ⟨-, hlt, -⟩ := Memory.fetch_eq_some_iff.mp hw
  omega

/-! ### What a step leaves, and when it answers a fault (R31, R146) -/

theorem step_sameParameters (h : step s = .next t) : SameParameters s t := by
  cases step_next_cases h <;> subst t <;> exact ⟨rfl, rfl⟩

theorem exists_step_of_fault_none (hf : s.fault = none) : ∃ t, step s = .next t := by
  cases hs : s.status with
  | running => exact (step_of_running_cases hs).imp fun _ h => h.1
  | halted => exact ⟨s, step_of_halted hs⟩
  | faulted => exact absurd hf (State.status_eq_faulted_iff.mp hs)
  | noProgram => exact ⟨_, step_of_noProgram hf (State.status_eq_noProgram_iff.mp hs).2⟩

/-- A step answers a fault exactly where a record is set already, and answers that record. -/
theorem step_eq_fault_iff {reason : Fault} :
    step s = .fault reason ↔ ∃ record, s.fault = some record ∧ reason = .hartFaulted record := by
  cases hf : s.fault with
  | some record => rw [step_of_fault hf]; simp [eq_comm]
  | none =>
    obtain ⟨t, ht⟩ := exists_step_of_fault_none hf
    simp [ht]

/-- No step follows a fault record. -/
theorem fault_eq_none_of_step (h : step s = .next t) : s.fault = none := by
  cases hf : s.fault with
  | none => rfl
  | some record => rw [step_of_fault hf] at h; cases h

/-- Only a step that executes an instruction with `rd = 0` under the policy `fault` leaves a Reserved-Register-Write
record. -/
theorem step_reservedRegisterWrite {fpc : Nat} {word : InstrWord} (h : step s = .next t)
    (ht : t.fault = some (.reservedRegisterWrite fpc word)) :
    s.status = .running ∧ s.config.x0WritePolicy = .fault ∧
      ∃ w i, s.fetch = some w ∧ decode w = .known i ∧ i.rd = 0#5 := by
  have hf := fault_eq_none_of_step h
  cases step_next_cases h with
  | reserved hs w i hw hd hr hp => exact ⟨hs, hp, w, i, hw, hd, hr⟩
  | missingProgram | badFetch | unknown => subst t; simp at ht
  | halted | write | discarded => subst t; simp [hf] at ht

/-- A step that executes an instruction is one write attempt of its result, after the pc advance (R80, R121). -/
theorem step_of_known {w : InstrWord} {i : Instr} (hs : s.status = .running) (hw : s.fetch = some w)
    (hd : decode w = .known i) : step s = .next (s.advancePc.writeBack i (resultOf i s.advancePc)) := by
  rw [step_of_running hs, cycle_of_known hw hd, exec_eq_writeBack]

/-! ### Runs -/

/-- What every step of a machine keeps holds after every number of steps. -/
theorem coreRun_induction {M : Host.Core} {P : M.State → Prop}
    (hstep : ∀ s t, P s → M.step s = .next t → P t) (k : Nat) {s t : M.State} (hs : P s)
    (h : M.run k s = .next t) : P t := by
  induction k generalizing s with
  | zero =>
    cases h
    exact hs
  | succ k ih =>
    rw [Host.Core.run] at h
    split at h
    next u hu => exact ih (hstep s u hs hu) h
    next => cases h
    next => cases h

/-- `run` takes no step on a hart whose run is over (R129). -/
theorem run_of_terminal (h : s.status = .halted ∨ s.status = .faulted) : run s = .next s := by
  obtain h | h := h <;> simp [run, h, State.stepBound, runLoop]

/-! ### The two policies of register 0 (R15)

By definition `withPolicy` changes no status, no fetch and no operand: only the write attempt to register 0 looks at the
policy. -/

/-- The step of an instruction with `rd = 0` under `discard` is the pc advance alone. -/
theorem step_withPolicy_discard {w : InstrWord} {i : Instr} (hs : s.status = .running) (hw : s.fetch = some w)
    (hd : decode w = .known i) (hr : i.rd = 0#5) :
    step (s.withPolicy .discard) = .next (s.advancePc.withPolicy .discard) := by
  have h := step_of_known (s := s.withPolicy .discard) hs hw hd
  rwa [writeBack_of_discard _ hr rfl] at h

/-- A step under `fault` that leaves no Reserved-Register-Write record is the same step under `discard`. -/
theorem step_withPolicy_discard_of_fault (h : step (s.withPolicy .fault) = .next t)
    (ht : ∀ fpc word, t.fault ≠ some (.reservedRegisterWrite fpc word)) :
    step (s.withPolicy .discard) = .next (t.withPolicy .discard) := by
  cases step_next_cases h with
  | missingProgram hf hp ht' => subst t; exact step_of_noProgram (s := s.withPolicy .discard) hf hp
  | halted hs ht' => subst t; exact step_of_halted (s := s.withPolicy .discard) hs
  | badFetch hs hw ht' =>
    subst t
    exact (step_of_running (s := s.withPolicy .discard) hs).trans (cycle_of_fetch_none hw)
  | unknown hs w hw hd ht' =>
    subst t
    exact (step_of_running (s := s.withPolicy .discard) hs).trans (cycle_of_unknown hw hd)
  | write hs w i hw hd hr ht' =>
    subst t
    have hres : resultOf i (s.withPolicy .discard).advancePc = resultOf i (s.withPolicy .fault).advancePc := by
      cases i <;> rfl
    rw [step_of_known (s := s.withPolicy .discard) hs hw hd, writeBack_of_ne_zero _ hr, hres]
    rfl
  | reserved hs w i hw hd hr hp ht' =>
    subst t
    exact absurd rfl (ht _ _)
  | discarded hs w i hw hd hr hp => cases hp

/-! ### An instruction's result (R16, R82) -/

/-- The result is computed from the source registers and the width alone. -/
theorem resultOf_toNat_congr (i : Instr) {s s' : State} (hc : s.config = s'.config)
    (hsrc : ∀ r ∈ i.sources, s.regValue r = s'.regValue r) :
    (resultOf i s).toNat = (resultOf i s').toNat := by
  obtain ⟨c, x, pc, program, fault⟩ := s
  obtain ⟨c', x', pc', program', fault'⟩ := s'
  obtain rfl : c = c' := hc
  have hread : ∀ r ∈ i.sources, x.read r = x'.read r := fun r hr => BitVec.eq_of_toNat_eq (hsrc r hr)
  cases i with
  | addi rd rs1 imm12 =>
    have h1 : x.read rs1 = x'.read rs1 := hread rs1 (by simp [Instr.sources])
    exact congrArg (fun a => (alu .addi a (immx c.xlen imm12)).toNat) h1
  | add rd rs1 rs2 | sub rd rs1 rs2 | sll rd rs1 rs2 | sltu rd rs1 rs2 | xor rd rs1 rs2 | srl rd rs1 rs2
  | or rd rs1 rs2 | and rd rs1 rs2 =>
    have h1 : x.read rs1 = x'.read rs1 := hread rs1 (by simp [Instr.sources])
    have h2 : x.read rs2 = x'.read rs2 := hread rs2 (by simp [Instr.sources])
    exact congrArg₂ (fun a b => (alu _ a b).toNat) h1 h2

/-- What a write attempt leaves in `rd`: the result, or 0 in register 0. -/
theorem writeBack_regValue_rd (s : State) (i : Instr) (r : Word s.config.xlen) :
    (s.writeBack i r).regValue i.rd = if i.rd = 0#5 then 0 else r.toNat := by
  split
  case isTrue h => rw [h, State.regValue_zero]
  case isFalse h => rw [writeBack_of_ne_zero s h, State.setReg_regValue s h, if_pos rfl]

/-! ### The invariant (R20, R147) -/

theorem create_inv (c : Config) (image : Option (List Byte)) : Inv (create c image) where
  memory := by
    cases image with
    | none => rfl
    | some bytes => exact Memory.ofBytes_wf bytes
  aligned := rfl
  bounded := fun _ _ => Nat.zero_le _
  noProgram := fun _ => ⟨rfl, fun r => State.fresh_regValue _ _ r⟩
  fault := nofun

/-- Raising a record that fits keeps the invariant. -/
theorem Inv.raise (h : Inv s) {record : FaultRecord} (hfit : FaultRecordFits (s.raise record) record) :
    Inv (s.raise record) where
  memory := h.memory
  aligned := h.aligned
  bounded := h.bounded
  noProgram := h.noProgram
  fault := by
    rintro _ ⟨⟩
    exact hfit

/-- The advance after a successful fetch keeps the invariant (R20). -/
theorem Inv.advancePc (h : Inv s) (hf : s.fault = none) {w : InstrWord} (hw : s.fetch = some w) :
    Inv s.advancePc where
  memory := h.memory
  aligned := by rw [State.advancePc_pc, Nat.add_mod_right, h.aligned]
  bounded := fun _ hp => State.pc_add_four_le_of_fetch hp (by simp [hw])
  noProgram := by
    obtain ⟨m, hp, -⟩ := State.exists_of_fetch hw
    simp [hp]
  fault := by simp [hf]

/-- A register write of a hart with a program keeps the invariant: only the clause for a hart without a program speaks
of registers. -/
theorem Inv.setReg (h : Inv s) {m : Memory} (hp : s.program = some m) (hf : s.fault = none) (i : RegIndex)
    (v : Word s.config.xlen) : Inv (s.setReg i v) where
  memory := h.memory
  aligned := h.aligned
  bounded := h.bounded
  noProgram := by simp [hp]
  fault := by simp [hf]

theorem step_keeps_inv (h : Inv s) (ht : step s = .next t) : Inv t := by
  have hf := fault_eq_none_of_step ht
  cases step_next_cases ht with
  | missingProgram _ hp ht' =>
    subst t
    obtain ⟨hpc, -⟩ := h.noProgram hp
    exact h.raise ⟨hpc, hp⟩
  | halted _ ht' => exact ht' ▸ h
  | badFetch hs hw ht' =>
    subst t
    obtain ⟨-, m, hp, hlt⟩ := State.exists_of_running hs
    exact h.raise ⟨rfl, m, hp, hlt, (State.fetch_of_program hp).symm.trans hw⟩
  | unknown _ w hw hd ht' =>
    subst t
    exact (h.advancePc hf hw).raise ⟨rfl, hd, State.exists_of_fetch hw⟩
  | write _ w i hw hd hr ht' =>
    subst t
    obtain ⟨m, hp, -⟩ := State.exists_of_fetch hw
    exact (h.advancePc hf hw).setReg hp hf _ _
  | reserved _ w i hw hd hr hp ht' =>
    subst t
    rw [encode_of_decode hd]
    exact (h.advancePc hf hw).raise ⟨rfl, hp, ⟨i, hd, hr⟩, State.exists_of_fetch hw⟩
  | discarded _ w i hw hd hr hp ht' =>
    subst t
    exact h.advancePc hf hw

/-- Every number of steps keeps the invariant and the program. -/
theorem coreRun_keeps_inv_and_program (k : Nat) (hs : Inv s) (h : Host.Core.run Sys2Proof.core k s = .next t) :
    Inv t ∧ t.program = s.program := by
  refine coreRun_induction (M := Sys2Proof.core) (P := fun u => Inv u ∧ u.program = s.program) ?_ k ⟨hs, rfl⟩ h
  rintro u v ⟨hu, hp⟩ huv
  obtain ⟨-, hprog⟩ := step_sameParameters huv
  exact ⟨step_keeps_inv hu huv, hprog.trans hp⟩

end Sys2Proof.Machine

namespace Sys2Proof

open Machine

/-- Settles O46: each way a step answers a next state is made of the advance, a register write and a raised record that
fits. -/
theorem stepKeepsInvariant : Obligations.StepKeepsInvariant := fun _ _ => step_keeps_inv

/-- Settles O8: under `discard` the write attempt to register 0 is no change, and nothing else in a step looks at the
policy. -/
theorem discardPolicyDropsRegisterZeroWrite : Obligations.DiscardPolicyDropsRegisterZeroWrite := by
  refine ⟨?_, ?_, ?_, ?_, ?_⟩
  · intro s i hp hr
    rw [exec_eq_writeBack, writeBack_of_discard s hr hp]
  · intro s t hp h fpc word ht
    obtain ⟨-, hp', -⟩ := step_reservedRegisterWrite h ht
    rw [hp] at hp'
    cases hp'
  · exact fun s t => step_withPolicy_discard_of_fault
  · intro s t fpc word h ht
    obtain ⟨hs, -, w, i, hw, hd, hr⟩ := step_reservedRegisterWrite h ht
    exact step_withPolicy_discard hs hw hd hr
  · intro s reason
    rw [step_eq_fault_iff, step_eq_fault_iff, State.withPolicy_fault, State.withPolicy_fault]

/-- Settles O18: both harts write back a result that the sources determine, or both leave register 0 at 0. -/
theorem resultDependsOnSourcesOnly : Obligations.ResultDependsOnSourcesOnly := by
  intro i s s' hc hsrc
  refine ⟨_, _, exec_eq_writeBack i s, exec_eq_writeBack i s', ?_⟩
  rw [writeBack_regValue_rd, writeBack_regValue_rd, resultOf_toNat_congr i hc hsrc]

/-- Settles O40, by the equivalence for each status; under the invariant the pc of a Halted hart is LEN and aligned. -/
theorem statusFollowsFaultProgramAndPc : Obligations.StatusFollowsFaultProgramAndPc := by
  refine ⟨fun s => ⟨State.status_eq_faulted_iff, State.status_eq_noProgram_iff, State.status_eq_running_iff,
    State.status_eq_halted_iff⟩, ?_⟩
  intro s hinv hs
  obtain ⟨-, m, hp, hle⟩ := State.status_eq_halted_iff.mp hs
  have hpc : s.pc = m.len := Nat.le_antisymm (hinv.bounded m hp) hle
  exact ⟨m, hp, hpc, hpc ▸ hinv.aligned⟩

/-- Settles O47: the invariant and the program hold along every run from creation. -/
theorem reachedPcIsAlignedBoundedAndNeverWraps : Obligations.ReachedPcIsAlignedBoundedAndNeverWraps := by
  intro c bytes k t h
  obtain ⟨hinv, hp⟩ := coreRun_keeps_inv_and_program k (create_inv c (some bytes)) h
  rw [create_program, Option.map_some] at hp
  have hle : t.pc ≤ bytes.length := hinv.bounded _ hp
  refine ⟨hinv.aligned, hle, fun pclen hlen => ?_⟩
  have hpos : 0 < 2 ^ pclen := Nat.two_pow_pos pclen
  refine ⟨by omega, fun hw => Nat.mod_eq_of_lt ?_⟩
  have hfour : t.pc + 4 ≤ bytes.length := State.pc_add_four_le_of_fetch hp hw
  omega

/-- Settles O1, by the fields of a fresh hart and the equivalence for each status. -/
theorem createdHartHoldsResetValues : Obligations.CreatedHartHoldsResetValues := by
  intro c image
  refine ⟨rfl, rfl, rfl, State.fresh_regValue c _, ?_, ?_⟩
  · rintro rfl
    exact State.status_of_noProgram rfl rfl
  · rintro bytes rfl
    exact ⟨fun h => State.status_eq_running_iff.mpr ⟨rfl, _, rfl, h⟩,
      fun h => State.status_eq_halted_iff.mpr ⟨rfl, _, rfl, h.le⟩⟩

/-- Settles O6, by the two branches of a register read. -/
theorem registerReadGivesZeroOrStoredValue : Obligations.RegisterReadGivesZeroOrStoredValue :=
  ⟨fun s => RegFile.read_zero s.x, fun s _ _ => s.readReg_of_toNat, create_readReg⟩

/-- Settles O7: a write attempt is `setReg` for `rd` other than 0, and a raised record for 0 under `fault`. -/
theorem registerWriteIsVisibleAndIsolated : Obligations.RegisterWriteIsVisibleAndIsolated := by
  refine fun s i v => ⟨fun hr => ⟨?_, State.regValue_zero _⟩, fun hr hp => ⟨?_, State.regValue_zero _⟩⟩
  · rw [writeBack_of_ne_zero s hr]
    exact s.setReg_writesOnly hr v
  · rw [writeBack_of_fault s hr hp]
    exact s.raise_raisesOnly _

/-- Settles O42: no step follows a record, so runs of any length keep it. -/
theorem faultRecordIsSetOnce : Obligations.FaultRecordIsSetOnce := by
  refine ⟨fun _ _ => rfl, fun s record hf => ⟨fun k t h => ?_, fun t h => ?_⟩, fun record => ?_⟩
  · refine coreRun_induction (M := Sys2Proof.core) (P := fun u => u.fault = some record) ?_ k hf h
    intro u v hu huv
    cases hu.symm.trans (fault_eq_none_of_step huv)
  · rw [run_of_terminal (.inr (State.status_of_fault hf))] at h
    cases h
    exact hf
  · cases record <;> simp [FaultRecord.word, FaultRecord.kind]

/-- Settles O45: State.reset is a creation without a program. -/
theorem createdHartMeetsInvariant : Obligations.CreatedHartMeetsInvariant :=
  ⟨create_inv, create_inv Config.recommended none⟩

/-- Settles O52: the value inspection lists at a register's number is that register's read. -/
theorem inspectionGivesAllRegisters : Obligations.InspectionGivesAllRegisters := by
  refine ⟨fun s h => ⟨_, inspect_of_terminal h, by simp, fun i => ?_⟩, fun s h => by simp [inspect, h]⟩
  have hi : i.toNat < 32 := i.isLt
  simp [hi]

end Sys2Proof
end

section
/-!
PROOFS, 20_memory.md. What a fetch answers (R33, R34), that the Instruction Buffer never changes (R31), the word a host places,
and how a run ends at an incomplete last word (R141): the instructions before it execute one after the other, and the
fetch after them fails.
-/

namespace Sys2Proof

/-! ### The bytes of an assembled word (R33) -/

/-- A byte appended below a bit vector is its last digit in base 256. -/
theorem toNat_append_byte {n : Nat} (x : BitVec n) (b : Byte) : (x ++ b).toNat = 256 * x.toNat + b.toNat := by
  rw [BitVec.toNat_append, ← Nat.shiftLeft_add_eq_or_of_lt b.isLt, Nat.shiftLeft_eq, Nat.mul_comm]

theorem assembleWord_toNat (b0 b1 b2 b3 : Byte) :
    (assembleWord b0 b1 b2 b3).toNat =
      b0.toNat + 256 * b1.toNat + 65536 * b2.toNat + 16777216 * b3.toNat := by
  simp only [assembleWord, toNat_append_byte]
  omega

@[simp] theorem assembleWord_extract_low (b0 b1 b2 b3 : Byte) :
    (assembleWord b0 b1 b2 b3).extractLsb' 0 8 = b0 := by
  apply BitVec.eq_of_toNat_eq
  rw [BitVec.extractLsb'_toNat, assembleWord_toNat, Nat.shiftRight_zero]
  omega

@[simp] theorem assembleWord_extract_high (b0 b1 b2 b3 : Byte) :
    (assembleWord b0 b1 b2 b3).extractLsb' 24 8 = b3 := by
  apply BitVec.eq_of_toNat_eq
  rw [BitVec.extractLsb'_toNat, assembleWord_toNat, Nat.shiftRight_eq_div_pow]
  omega

/-- Every instruction's word decodes to the instruction, whatever its operands (R77). -/
@[simp] theorem decode_encode (i : Instr) : decode (encode i) = .known i := by
  cases i with
  | addi => simp [encode, decode, decodeIShape]
  | add | sub | sll | sltu | xor | srl | or | and => simp [encode, decode, decodeRShape]

end Sys2Proof

namespace Sys2Proof.Machine

variable {s t : State} {m : Memory}

/-! ### Reading and fetching (R33, R34) -/

theorem Memory.read_of_lt {a : Nat} (h : a < m.len) : m.read a = some (m.byteAt a) := if_pos h

/-- A word that stands at an aligned place in an image is what a fetch there answers. -/
theorem Memory.fetch_ofBytes_append (pre rest : List Byte) (w : InstrWord) (h : pre.length % 4 = 0) :
    (Memory.ofBytes (pre ++ (wordBytes w ++ rest))).fetch pre.length = some w := by
  refine Memory.fetch_eq_some_iff.mpr ⟨h, by simp [wordBytes], ?_⟩
  have hbyte : ∀ k, (pre ++ (wordBytes w ++ rest)).getD (pre.length + k) 0#8 =
      (wordBytes w ++ rest).getD k 0#8 := fun k => by
    rw [List.getD_append_right _ _ _ _ (Nat.le_add_right _ _), Nat.add_sub_cancel_left]
  rw [Memory.readWord_ofBytes, hbyte 1, hbyte 2, hbyte 3, ← Nat.add_zero pre.length, hbyte 0]
  exact assembleWord_wordBytes w

/-- A word placed at an aligned address is what a fetch there answers. -/
theorem Memory.fetch_placeBytes (hm : m.wf = true) {a : Nat} (ha : a % 4 = 0) (w : InstrWord) :
    (m.placeBytes a (wordBytes w)).fetch a = some w := by
  have hlen : (m.placeBytes a (wordBytes w)).len = max m.len (a + 4) := Memory.placeBytes_len m a _ _
  refine Memory.fetch_eq_some_iff.mpr ⟨ha, by omega, ?_⟩
  have hbyte : ∀ k < 4, (m.placeBytes a (wordBytes w)).byteAt (a + k) = (wordBytes w).getD k 0#8 := fun k hk => by
    rw [Memory.byteAt_placeBytes hm, if_pos ⟨Nat.le_add_right _ _, Nat.add_lt_add_left hk a⟩, Nat.add_sub_cancel_left]
  rw [Memory.readWord, hbyte 1 (by decide), hbyte 2 (by decide), hbyte 3 (by decide)]
  exact (congrArg (assembleWord · _ _ _) (hbyte 0 (by decide))).trans (assembleWord_wordBytes w)

/-! ### A failed fetch (R34, R141) -/

/-- A hart that can fetch is Running. -/
theorem State.running_of_fetch {w : InstrWord} (hf : s.fault = none) (hw : s.fetch = some w) :
    s.status = .running := by
  obtain ⟨m, hp, hm⟩ := State.exists_of_fetch hw
  obtain ⟨-, hlt, -⟩ := Memory.fetch_eq_some_iff.mp hm
  exact State.status_eq_running_iff.mpr ⟨hf, m, hp, by omega⟩

/-- Where the fetch of a Running hart fails, the step raises Bounds/Alignment at the pc and does nothing else. -/
theorem step_of_fetch_none (hs : s.status = .running) (hw : s.fetch = none) :
    step s = .next (s.raise (.boundsAlignment s.pc)) := by
  rw [step_of_running hs, cycle_of_fetch_none hw]

/-- The two halves of the fetch precondition as the spec writes them: the last of the four bytes is not beyond LEN - 1 (R34). -/
theorem step_of_misaligned_or_outOfBounds (hf : s.fault = none) (hp : s.program = some m) (hlt : s.pc < m.len)
    (hbad : ¬(s.pc % 4 = 0 ∧ s.pc + 3 ≤ m.len - 1)) : step s = .next (s.raise (.boundsAlignment s.pc)) := by
  refine step_of_fetch_none (State.status_eq_running_iff.mpr ⟨hf, m, hp, hlt⟩) ?_
  rw [State.fetch_of_program hp, Memory.fetch_eq_none_iff]
  omega

/-- A step of a Running hart leaves a Bounds/Alignment record exactly where its fetch fails. -/
theorem step_boundsAlignment_iff (hs : s.status = .running) :
    (∃ t fpc, step s = .next t ∧ t.fault = some (.boundsAlignment fpc)) ↔ s.fetch = none := by
  refine ⟨?_, fun hw => ⟨_, _, step_of_fetch_none hs hw, rfl⟩⟩
  rintro ⟨t, fpc, h, ht⟩
  have hf := fault_eq_none_of_step h
  cases step_next_cases h with
  | badFetch _ hw => exact hw
  | missingProgram | unknown | reserved => subst t; simp at ht
  | halted | write | discarded => subst t; simp [hf] at ht

/-- Nothing runs after a fault record (R146). -/
theorem raise_runIsOver (s : State) (record : FaultRecord) : RunIsOver (s.raise record) :=
  ⟨fun _ h => by simpa using fault_eq_none_of_step h,
    run_of_terminal (.inr (State.status_of_fault (State.raise_fault s record)))⟩

/-! ### Runs of the host's loop (R125) -/

/-- The loop stops at once where the status is not Running. -/
theorem runLoop_of_not_running (h : s.status ≠ .running) (fuel : Nat) : runLoop fuel s = .next s := by
  cases fuel with
  | zero => rfl
  | succ fuel =>
    rw [runLoop]
    split
    next hs => exact absurd hs h
    all_goals rfl

theorem runLoop_of_running (hs : s.status = .running) (h : step s = .next t) (fuel : Nat) :
    runLoop (fuel + 1) s = runLoop fuel t := by
  simp [runLoop, hs, h]

/-- A failed fetch ends the loop. -/
theorem runLoop_of_fetch_none (hs : s.status = .running) (hw : s.fetch = none) (fuel : Nat) :
    runLoop (fuel + 1) s = .next (s.raise (.boundsAlignment s.pc)) := by
  rw [runLoop_of_running hs (step_of_fetch_none hs hw), runLoop_of_not_running]
  simp [State.status_of_fault (State.raise_fault s _)]

/-- Where a hart with a program is not Running, a next state is the same state: it is Halted (R129). -/
theorem eq_of_step_of_not_running (hp : s.program = some m) (hs : s.status ≠ .running) (h : step s = .next t) :
    s = t := by
  cases step_next_cases h with
  | halted _ ht => exact ht.symm
  | missingProgram _ hn => simp [hn] at hp
  | badFetch hr | unknown hr | write hr | reserved hr | discarded hr => exact absurd hr hs

/-- What every step keeps, the loop keeps. -/
theorem runLoop_induction {P : State → Prop} (hstep : ∀ s t, P s → step s = .next t → P t) (fuel : Nat)
    (hs : P s) (h : runLoop fuel s = .next t) : P t := by
  induction fuel generalizing s with
  | zero =>
    cases h
    exact hs
  | succ fuel ih =>
    by_cases hr : s.status = .running
    · obtain ⟨u, hu, -⟩ := step_of_running_cases hr
      rw [runLoop_of_running hr hu] at h
      exact ih (hstep s u hs hu) h
    · rw [runLoop_of_not_running hr] at h
      cases h
      exact hs

/-- For a hart with a program `run` is the loop with its bound. -/
theorem run_eq_runLoop (hp : s.program = some m) : run s = runLoop (m.len / 4 + 1) s := by
  have hb : s.stepBound = m.len / 4 + 1 := by simp [State.stepBound, State.programLength, hp]
  rw [← hb, run]
  split
  next hs => simp [(State.status_eq_noProgram_iff.mp hs).2] at hp
  all_goals rfl

/-- `k + 1` steps are one step and `k` more. -/
theorem coreRun_succ_eq_next_iff {M : Host.Core} {k : Nat} {s t : M.State} :
    M.run (k + 1) s = .next t ↔ ∃ u, M.step s = .next u ∧ M.run k u = .next t := by
  rw [Host.Core.run]
  cases M.step s <;> simp

/-- Steps that have been taken count against the loop's bound and change nothing else of what it answers. -/
theorem runLoop_add_of_coreRun {k : Nat} (hp : s.program = some m) (h : Host.Core.run Sys2Proof.core k s = .next t)
    (fuel : Nat) : runLoop (k + fuel) s = runLoop fuel t := by
  induction k generalizing s with
  | zero =>
    cases h
    rw [Nat.zero_add]
  | succ k ih =>
    obtain ⟨u, hu, hrest⟩ := coreRun_succ_eq_next_iff.mp h
    have hu : step s = .next u := hu
    have ih := ih ((step_sameParameters hu).2.trans hp) hrest
    by_cases hs : s.status = .running
    · rw [Nat.add_right_comm, runLoop_of_running hs hu, ih]
    · obtain rfl := eq_of_step_of_not_running hp hs hu
      rw [runLoop_of_not_running hs, ← ih, runLoop_of_not_running hs]

/-- `run` of a hart without a program raises Missing-Program (R144). -/
theorem run_of_noProgram (hf : s.fault = none) (hp : s.program = none) :
    run s = .next (s.raise (.missingProgram s.pc)) := by
  simp [run, State.status_of_noProgram hf hp]

theorem run_sameParameters (h : run s = .next t) : SameParameters s t := by
  cases hp : s.program with
  | none =>
    cases hf : s.fault with
    | none =>
      rw [run_of_noProgram hf hp] at h
      cases h
      exact ⟨rfl, rfl⟩
    | some record =>
      rw [run_of_terminal (.inr (State.status_of_fault hf))] at h
      cases h
      exact ⟨rfl, rfl⟩
  | some m =>
    rw [run_eq_runLoop hp] at h
    refine runLoop_induction (P := SameParameters s) ?_ _ ⟨rfl, rfl⟩ h
    rintro u v ⟨hc, hprog⟩ huv
    obtain ⟨hc', hprog'⟩ := step_sameParameters huv
    exact ⟨hc'.trans hc, hprog'.trans hprog⟩

/-! ### Instructions one after the other (R127, R134) -/

/-- The state an instruction's execute phase answers (R80, R84). -/
def State.execute (s : State) (i : Instr) : State := s.writeBack i (resultOf i s)

theorem exec_eq_execute (i : Instr) (s : State) : exec i s = .next (s.execute i) := exec_eq_writeBack i s

theorem execAll_eq_foldl (is : List Instr) (s : State) : execAll is s = .next (is.foldl State.execute s) := by
  induction is generalizing s with
  | nil => rfl
  | cons i rest ih => rw [execAll, exec_eq_execute, List.foldl_cons, ← ih]

theorem State.execute_sameParameters (s : State) (i : Instr) : SameParameters s (s.execute i) :=
  (writeBack_frame s i _).1

/-- An instruction that is no faulting write to register 0 completes, and the pc has no part in what it does (R16, R18). -/
theorem State.execute_completes {i : Instr} (h : s.config.x0WritePolicy = .fault → i.rd ≠ 0#5) :
    (s.execute i).fault = s.fault ∧ ∀ pc, (s.withPc pc).execute i = (s.execute i).withPc pc := by
  have hres : ∀ pc, resultOf i (s.withPc pc) = resultOf i s := fun pc => by cases i <;> rfl
  obtain ⟨hr, hw⟩ | ⟨hr, hp, -⟩ | ⟨hr, hp, hw⟩ := writeBack_cases s i (resultOf i s)
  · rw [State.execute, hw]
    refine ⟨rfl, fun pc => ?_⟩
    rw [State.execute, writeBack_of_ne_zero _ hr, hres]
    rfl
  · exact absurd hr (h hp)
  · rw [State.execute, hw]
    exact ⟨rfl, fun pc => writeBack_of_discard (s.withPc pc) hr hp _⟩

/-- The words of the instructions stand in the buffer from address `a` on, and can be fetched there. -/
def Memory.Holds (m : Memory) : Nat → List Instr → Prop
  | _, [] => True
  | a, i :: rest => m.fetch a = some (encode i) ∧ m.Holds (a + 4) rest

/-- The image of a list of instructions holds them, wherever a multiple of four bytes precedes it. -/
theorem Memory.ofBytes_holds (pre tail : List Byte) (is : List Instr) (h : pre.length % 4 = 0) :
    (Memory.ofBytes (pre ++ (imageOf is ++ tail))).Holds pre.length is := by
  induction is generalizing pre with
  | nil => trivial
  | cons i rest ih =>
    rw [imageOf, List.append_assoc]
    refine ⟨Memory.fetch_ofBytes_append pre _ _ h, ?_⟩
    have ih := ih (pre ++ wordBytes (encode i)) (by simpa [wordBytes] using h)
    rwa [List.append_assoc, List.length_append] at ih

theorem imageOf_length (is : List Instr) : (imageOf is).length = 4 * is.length := by
  induction is with
  | nil => rfl
  | cons i rest ih =>
    have hword : (wordBytes (encode i)).length = 4 := rfl
    rw [imageOf, List.length_append, hword, ih, List.length_cons]
    omega

theorem Memory.len_ofBytes_imageOf_append (is : List Instr) (tail : List Byte) :
    (Memory.ofBytes (imageOf is ++ tail)).len = 4 * is.length + tail.length := by
  rw [Memory.ofBytes_len, List.length_append, imageOf_length]

/-- Straight-line code: from where the instructions stand, as many steps execute them one after the other, and advance the
pc past them (R121, R134). -/
theorem coreRun_of_holds {is : List Instr} (hp : s.program = some m) (hf : s.fault = none)
    (his : ∀ i ∈ is, s.config.x0WritePolicy = .fault → i.rd ≠ 0#5) {a : Nat} (hm : m.Holds a is) :
    Host.Core.run Sys2Proof.core is.length (s.withPc a) =
      .next ((is.foldl State.execute s).withPc (a + 4 * is.length)) := by
  induction is generalizing s a with
  | nil => rfl
  | cons i rest ih =>
    obtain ⟨hw, hrest⟩ := hm
    have hfetch : (s.withPc a).fetch = some (encode i) := (State.fetch_of_program (s := s.withPc a) hp).trans hw
    obtain ⟨hfault, hpc⟩ := State.execute_completes (his i List.mem_cons_self)
    obtain ⟨hconfig, hprog⟩ := s.execute_sameParameters i
    have hstep : step (s.withPc a) = .next ((s.execute i).withPc (a + 4)) :=
      (step_of_known (State.running_of_fetch (s := s.withPc a) hf hfetch) hfetch (decode_encode i)).trans
        (congrArg _ (hpc (a + 4)))
    have ih := ih (hprog.trans hp) (hfault.trans hf)
      (fun j hj => hconfig ▸ his j (List.mem_cons_of_mem i hj)) hrest
    have hend : a + 4 + 4 * rest.length = a + 4 * (i :: rest).length := by
      rw [List.length_cons]
      omega
    rw [hend] at ih
    exact coreRun_succ_eq_next_iff.mpr ⟨_, hstep, ih⟩

/-- What completed instructions leave of the parameters and the fault record. -/
theorem foldl_execute_frame {is : List Instr} (his : ∀ i ∈ is, s.config.x0WritePolicy = .fault → i.rd ≠ 0#5) :
    SameParameters s (is.foldl State.execute s) ∧ (is.foldl State.execute s).fault = s.fault := by
  induction is generalizing s with
  | nil => exact ⟨⟨rfl, rfl⟩, rfl⟩
  | cons i rest ih =>
    obtain ⟨hfault, -⟩ := State.execute_completes (his i List.mem_cons_self)
    obtain ⟨hconfig, hprog⟩ := s.execute_sameParameters i
    obtain ⟨⟨hconfig', hprog'⟩, hfault'⟩ := ih (fun j hj => hconfig ▸ his j (List.mem_cons_of_mem i hj))
    exact ⟨⟨hconfig'.trans hconfig, hprog'.trans hprog⟩, hfault'.trans hfault⟩

/-- The run of an image that begins with instructions which complete: they execute one after the other, and the loop goes on
behind them with the steps left for the rest of the image (R127). -/
theorem run_create_imageOf (c : Config) {is : List Instr} (tail : List Byte)
    (his : ∀ i ∈ is, c.x0WritePolicy = .fault → i.rd ≠ 0#5) :
    run (create c (some (imageOf is ++ tail))) =
      runLoop (tail.length / 4 + 1)
        ((is.foldl State.execute (create c (some (imageOf is ++ tail)))).withPc (4 * is.length)) := by
  have hp : (create c (some (imageOf is ++ tail))).program = some (Memory.ofBytes (imageOf is ++ tail)) := rfl
  have hsteps := coreRun_of_holds hp rfl his (Memory.ofBytes_holds [] tail is rfl)
  rw [List.length_nil, Nat.zero_add] at hsteps
  have hbound : (Memory.ofBytes (imageOf is ++ tail)).len / 4 + 1 = is.length + (tail.length / 4 + 1) := by
    rw [Memory.len_ofBytes_imageOf_append]
    omega
  rw [run_eq_runLoop hp, hbound]
  exact runLoop_add_of_coreRun hp hsteps _

/-- The run of instructions followed by one to three bytes ends with the pc at the incomplete word, where the fetch fails
(R141, R148). -/
theorem run_of_stray_bytes (c : Config) {is : List Instr} {tail : List Byte}
    (his : ∀ i ∈ is, c.x0WritePolicy = .fault → i.rd ≠ 0#5) (h1 : 1 ≤ tail.length) (h3 : tail.length ≤ 3) :
    run (create c (some (imageOf is ++ tail))) =
      .next (((is.foldl State.execute (create c (some (imageOf is ++ tail)))).withPc (4 * is.length)).raise
        (.boundsAlignment (4 * is.length))) := by
  obtain ⟨⟨-, hprog⟩, hfault⟩ := foldl_execute_frame (s := create c (some (imageOf is ++ tail))) his
  rw [run_create_imageOf c tail his]
  generalize is.foldl State.execute (create c (some (imageOf is ++ tail))) = u at *
  have hp : (u.withPc (4 * is.length)).program = some (Memory.ofBytes (imageOf is ++ tail)) := hprog
  have hlen := Memory.len_ofBytes_imageOf_append is tail
  have hrunning : (u.withPc (4 * is.length)).status = .running :=
    State.status_eq_running_iff.mpr ⟨hfault, _, hp, by rw [hlen, State.withPc_pc]; omega⟩
  have hfetch : (u.withPc (4 * is.length)).fetch = none := by
    rw [State.fetch_of_program hp, Memory.fetch_eq_none_iff, hlen, State.withPc_pc]
    omega
  exact runLoop_of_fetch_none hrunning hfetch _

end Sys2Proof.Machine

namespace Sys2Proof

open Machine

/-- Settles O4: the bytes are the digits of the assembled word in base 256, and the fetch precondition is that all four
are below LEN. -/
theorem fetchAssemblesLittleEndian : Obligations.FetchAssemblesLittleEndian := by
  refine ⟨fun m a ha hlen => ?_, fun m a h => Memory.fetch_eq_none_iff.mpr h, by decide⟩
  exact ⟨m.byteAt a, m.byteAt (a + 1), m.byteAt (a + 2), m.byteAt (a + 3), m.readWord a,
    Memory.read_of_lt (by omega), Memory.read_of_lt (by omega), Memory.read_of_lt (by omega),
    Memory.read_of_lt (by omega), Memory.fetch_eq_some_iff.mpr ⟨ha, hlen, rfl⟩, assembleWord_toNat _ _ _ _,
    assembleWord_extract_low _ _ _ _, assembleWord_extract_high _ _ _ _⟩

/-- Settles O5: a step raises Bounds/Alignment exactly where the fetch fails, which under the invariant is at an incomplete last
word, and straight-line code runs up to it. -/
theorem failedFetchRaisesBoundsAlignment : Obligations.FailedFetchRaisesBoundsAlignment := by
  refine ⟨fun s m hf hp hlt hbad => ?_, fun s m hinv hf hp hlt => ?_, fun c is tail his h1 h3 => ?_,
    fun c bytes h1 h3 => ?_⟩
  · exact ⟨_, step_of_misaligned_or_outOfBounds hf hp hlt hbad, s.raise_raisesOnly _, raise_runIsOver s _⟩
  · rw [step_boundsAlignment_iff (State.status_eq_running_iff.mpr ⟨hf, m, hp, hlt⟩), State.fetch_of_program hp,
      Memory.fetch_eq_none_iff]
    have haligned := hinv.aligned
    omega
  · exact ⟨_, _, run_of_stray_bytes c his h1 h3, rfl, rfl, execAll_eq_foldl is _, fun _ => rfl⟩
  · have hbad : ¬(0 % 4 = 0 ∧ 0 + 3 ≤ bytes.length - 1) := by omega
    exact ⟨_, step_of_misaligned_or_outOfBounds (m := Memory.ofBytes bytes) rfl rfl h1 hbad,
      State.raise_raisesOnly (create c (some bytes)) (.boundsAlignment 0)⟩

/-- Settles O35: a step, a write attempt and each round of the run's loop leave the parameters. -/
theorem programIsImmutable : Obligations.ProgramIsImmutable := by
  refine ⟨fun _ _ => step_sameParameters, fun i s t h => ?_, fun _ _ => run_sameParameters⟩
  rw [exec_eq_execute] at h
  cases h
  exact s.execute_sameParameters i

/-- Settles O36: the placed bytes are read back as the word, and a hart that can fetch is Running. -/
theorem placedWordIsFetchedNext : Obligations.PlacedWordIsFetchedNext := by
  intro s w hpc hwf
  have hm : (s.program.getD ⟨0, []⟩).wf = true := by
    cases hp : s.program with
    | none => rfl
    | some m => simpa [State.memoryWf, hp] using hwf
  have hprog : (s.withFetchWord 32 w.toNat).program =
      some ((s.program.getD ⟨0, []⟩).placeBytes s.pc (wordBytes w)) := by
    rw [State.withFetchWord_program, Nat.mod_eq_of_lt w.isLt, BitVec.ofNat_toNat, BitVec.setWidth_eq]
  have hfetch : (s.withFetchWord 32 w.toNat).fetch = some w :=
    (State.fetch_of_program hprog).trans (Memory.fetch_placeBytes hm hpc w)
  refine ⟨hfetch, ?_, State.running_of_fetch (State.withFetchWord_fault s _ _) hfetch⟩
  rw [State.memoryWf, hprog]
  exact Memory.placeBytes_wf hm _ _

end Sys2Proof
end

section
/-!
PROOFS, 30_encoding.md. The encoding as arithmetic (R64), known words as exactly the encodings of the instructions
(R52, R53) and their number (R59), the immediate's value (R54), source lines (R62, R63), and what executing a known
and an unknown word does to the hart (R60, R61).
-/

namespace Sys2Proof

/-! ### The encoding as arithmetic (R64) -/

/-- A field put below others is their lowest digits: the others move up by its width. -/
theorem toNat_append_eq_add {m n : Nat} (x : BitVec m) (y : BitVec n) :
    (x ++ y).toNat = x.toNat * 2 ^ n + y.toNat := by
  rw [BitVec.toNat_append, ← Nat.shiftLeft_add_eq_or_of_lt y.isLt, Nat.shiftLeft_eq]

theorem encodeIShape_toNat (rd rs1 : RegIndex) (imm12 : Imm12) :
    (encodeIShape rd rs1 imm12).toNat =
      imm12.toNat * 2 ^ 20 + rs1.toNat * 2 ^ 15 + 0 * 2 ^ 12 + rd.toNat * 2 ^ 7 + 0x13 := by
  simp only [encodeIShape, toNat_append_eq_add, BitVec.toNat_ofNat]
  omega

theorem encodeRShape_toNat (funct3 : BitVec 3) (funct7 : BitVec 7) (rd rs1 rs2 : RegIndex) :
    (encodeRShape funct3 funct7 rd rs1 rs2).toNat =
      funct7.toNat * 2 ^ 25 + rs2.toNat * 2 ^ 20 + rs1.toNat * 2 ^ 15 + funct3.toNat * 2 ^ 12 +
        rd.toNat * 2 ^ 7 + 0x33 := by
  simp only [encodeRShape, toNat_append_eq_add, BitVec.toNat_ofNat]
  omega

/-! ### Known words (R52, R53, R58) -/

/-- All values of all operand fields are legal (R77). -/
theorem Instr.wellFormed_eq_true (i : Instr) : i.wellFormed = true := by
  cases i with
  | addi rd rs1 imm12 => exact Laws.WellFormedness.addi rd rs1 imm12
  | add rd rs1 rs2 => exact Laws.WellFormedness.add rd rs1 rs2
  | sub rd rs1 rs2 => exact Laws.WellFormedness.sub rd rs1 rs2
  | sll rd rs1 rs2 => exact Laws.WellFormedness.sll rd rs1 rs2
  | sltu rd rs1 rs2 => exact Laws.WellFormedness.sltu rd rs1 rs2
  | xor rd rs1 rs2 => exact Laws.WellFormedness.xor rd rs1 rs2
  | srl rd rs1 rs2 => exact Laws.WellFormedness.srl rd rs1 rs2
  | or rd rs1 rs2 => exact Laws.WellFormedness.or rd rs1 rs2
  | and rd rs1 rs2 => exact Laws.WellFormedness.and rd rs1 rs2

theorem Instr.exists_row_matches_encode (i : Instr) :
    ∃ row ∈ opcodeTable, row.op = i.op ∧ row.matches (encode i) = true := by
  cases i with
  | addi rd rs1 imm12 => exact Laws.TableRow.addi rd rs1 imm12
  | add rd rs1 rs2 => exact Laws.TableRow.add rd rs1 rs2
  | sub rd rs1 rs2 => exact Laws.TableRow.sub rd rs1 rs2
  | sll rd rs1 rs2 => exact Laws.TableRow.sll rd rs1 rs2
  | sltu rd rs1 rs2 => exact Laws.TableRow.sltu rd rs1 rs2
  | xor rd rs1 rs2 => exact Laws.TableRow.xor rd rs1 rs2
  | srl rd rs1 rs2 => exact Laws.TableRow.srl rd rs1 rs2
  | or rd rs1 rs2 => exact Laws.TableRow.or rd rs1 rs2
  | and rd rs1 rs2 => exact Laws.TableRow.and rd rs1 rs2

/-- A word is an instruction's encoding exactly where the decoder answers that instruction. -/
theorem decode_eq_known_iff {w : InstrWord} {i : Instr} : decode w = .known i ↔ encode i = w :=
  ⟨encode_of_decode, fun h => h ▸ decode_encode i⟩

theorem decode_ne_unknown_iff {w : InstrWord} : decode w ≠ .unknown ↔ ∃ i, encode i = w := by
  simp only [← decode_eq_known_iff]
  cases decode w <;> simp

/-- A word that matches no row is no instruction's encoding, so it is unknown (R60, R75). -/
theorem decode_eq_unknown_of_no_row {w : InstrWord} (h : ∀ row ∈ opcodeTable, w &&& row.mask ≠ row.value) :
    decode w = .unknown := by
  by_contra hk
  obtain ⟨i, rfl⟩ := decode_ne_unknown_iff.mp hk
  obtain ⟨row, hrow, -, hmatch⟩ := i.exists_row_matches_encode
  exact h row hrow (of_decide_eq_true hmatch)

/-! ### The rows are disjoint (R59) -/

/-- Two rows that match one word have the same value on the bits that both masks keep. -/
theorem OpcodeRow.value_and_mask_of_matches {row row' : OpcodeRow} {w : InstrWord} (h : row.matches w = true)
    (h' : row'.matches w = true) : row.value &&& row'.mask = row'.value &&& row.mask := by
  have h : w &&& row.mask = row.value := of_decide_eq_true h
  have h' : w &&& row'.mask = row'.value := of_decide_eq_true h'
  rw [← h, ← h', BitVec.and_assoc, BitVec.and_comm row.mask, BitVec.and_assoc]

theorem opcodeTable_rows_differ_on_common_mask :
    ∀ row ∈ opcodeTable, ∀ row' ∈ opcodeTable,
      row.value &&& row'.mask = row'.value &&& row.mask → row = row' := by decide

/-! ### How many words are known (R59) -/

/-- What an instruction is made of: the operands of ADDI, or one of the eight R-shape operations and three registers. -/
abbrev InstrParts := (RegIndex × RegIndex × Imm12) ⊕ (Fin 8 × RegIndex × RegIndex × RegIndex)

def Instr.toParts : Instr → InstrParts
  | .addi rd rs1 imm12 => .inl (rd, rs1, imm12)
  | .add rd rs1 rs2 => .inr (0, rd, rs1, rs2)
  | .sub rd rs1 rs2 => .inr (1, rd, rs1, rs2)
  | .sll rd rs1 rs2 => .inr (2, rd, rs1, rs2)
  | .sltu rd rs1 rs2 => .inr (3, rd, rs1, rs2)
  | .xor rd rs1 rs2 => .inr (4, rd, rs1, rs2)
  | .srl rd rs1 rs2 => .inr (5, rd, rs1, rs2)
  | .or rd rs1 rs2 => .inr (6, rd, rs1, rs2)
  | .and rd rs1 rs2 => .inr (7, rd, rs1, rs2)

def Instr.ofParts : InstrParts → Instr
  | .inl (rd, rs1, imm12) => .addi rd rs1 imm12
  | .inr (0, rd, rs1, rs2) => .add rd rs1 rs2
  | .inr (1, rd, rs1, rs2) => .sub rd rs1 rs2
  | .inr (2, rd, rs1, rs2) => .sll rd rs1 rs2
  | .inr (3, rd, rs1, rs2) => .sltu rd rs1 rs2
  | .inr (4, rd, rs1, rs2) => .xor rd rs1 rs2
  | .inr (5, rd, rs1, rs2) => .srl rd rs1 rs2
  | .inr (6, rd, rs1, rs2) => .or rd rs1 rs2
  | .inr (7, rd, rs1, rs2) => .and rd rs1 rs2

/-- An instruction is its parts. -/
def Instr.equivParts : Instr ≃ InstrParts where
  toFun := Instr.toParts
  invFun := Instr.ofParts
  left_inv i := by cases i <;> rfl
  right_inv parts := by
    obtain ⟨rd, rs1, imm12⟩ | ⟨k, rd, rs1, rs2⟩ := parts
    · rfl
    · fin_cases k <;> rfl

theorem natCard_bitVec (n : Nat) : Nat.card (BitVec n) = 2 ^ n :=
  Nat.card_eq_of_equiv_fin BitVec.equivFin.toEquiv

/-- 2^22 instructions ADDI, and 2^15 of each R-shape operation (R59). -/
theorem natCard_instr : Nat.card Instr = 2 ^ 22 + 8 * 2 ^ 15 := by
  rw [Nat.card_congr Instr.equivParts, Nat.card_sum]
  simp only [Nat.card_prod, natCard_bitVec, Nat.card_fin]
  norm_num

theorem encode_injective : Function.Injective encode := fun i j h => by
  have hij := (decode_encode i).symm.trans (h ▸ decode_encode j)
  cases hij
  rfl

theorem ncard_known_words : Set.ncard { w : InstrWord | decode w ≠ .unknown } = 4456448 := by
  have hrange : { w : InstrWord | decode w ≠ .unknown } = Set.range encode :=
    Set.ext fun _ => decode_ne_unknown_iff
  rw [hrange, ← Nat.card_coe_set_eq, Nat.card_range_of_injective encode_injective, natCard_instr]
  norm_num

theorem ncard_unknown_words : Set.ncard { w : InstrWord | decode w = .unknown } = 4290510848 := by
  have hcompl : { w : InstrWord | decode w = .unknown } = { w : InstrWord | decode w ≠ .unknown }ᶜ := by
    ext w
    simp
  rw [hcompl, Set.ncard_compl, ncard_known_words, natCard_bitVec]
  norm_num

/-! ### Source lines (R62, R63) -/

/-- Every operation but ADDI has the register form. -/
theorem Op.isSome_rInstr (op : Op) (rd rs1 rs2 : RegIndex) :
    (op.rInstr rd rs1 rs2).isSome = registerFormOk op := by
  cases op <;> rfl

theorem SourceLine.assemble_addi {xd xs1 : Nat} {imm : SourceImm}
    (h : (SourceLine.addi xd xs1 imm).wellFormed = true) :
    (SourceLine.addi xd xs1 imm).assemble =
      some (.addi (BitVec.ofNat 5 xd) (BitVec.ofNat 5 xs1) imm.toField) := if_pos h

theorem SourceLine.assemble_reg {op : Op} {xd xs1 xs2 : Nat}
    (h : (SourceLine.reg op xd xs1 xs2).wellFormed = true) :
    (SourceLine.reg op xd xs1 xs2).assemble =
      op.rInstr (BitVec.ofNat 5 xd) (BitVec.ofNat 5 xs1) (BitVec.ofNat 5 xs2) := if_pos h

theorem SourceLine.assemble_of_not_wellFormed {line : SourceLine} (h : ¬line.wellFormed = true) :
    line.assemble = none := if_neg h

theorem SourceLine.isSome_assemble (line : SourceLine) : line.assemble.isSome = line.wellFormed := by
  by_cases h : line.wellFormed = true
  · cases line with
    | addi xd xs1 imm => rw [SourceLine.assemble_addi h, h, Option.isSome_some]
    | reg op xd xs1 xs2 =>
      have hform : registerFormOk op = true := by
        simp only [SourceLine.wellFormed, Bool.and_eq_true] at h
        obtain ⟨⟨⟨hform, -⟩, -⟩, -⟩ := h
        exact hform
      rw [SourceLine.assemble_reg h, h, Op.isSome_rInstr, hform]
  · rw [SourceLine.assemble_of_not_wellFormed h, Option.isSome_none, Bool.eq_false_of_not_eq_true h]

/-- The line an instruction is written as assembles to it. -/
theorem Instr.assemble_toSource (i : Instr) : i.toSource.assemble = some i := by
  have h : i.toSource.wellFormed = true := i.wellFormed_eq_true
  cases i with
  | addi rd rs1 imm12 =>
    rw [Instr.toSource, SourceLine.assemble_addi h, SourceImm.toField, BitVec.ofInt_toInt]
    simp only [BitVec.ofNat_toNat, BitVec.setWidth_eq]
  | add | sub | sll | sltu | xor | srl | or | and =>
    rw [Instr.toSource, SourceLine.assemble_reg h]
    simp only [BitVec.ofNat_toNat, BitVec.setWidth_eq, Op.rInstr]

/-- The mnemonic of an operation names that operation, and no other mnemonic names one (R63). -/
theorem Op.ofMnemonic_eq_some_iff (mnemonic : String) (op : Op) :
    Op.ofMnemonic mnemonic = some op ↔ op.mnemonic = mnemonic := by
  constructor
  · intro h
    obtain ⟨row, hrow, rfl⟩ := Option.map_eq_some_iff.mp h
    simpa using List.find?_some hrow
  · rintro rfl
    cases op <;> decide

end Sys2Proof

namespace Sys2Proof.Machine

variable {s : State}

/-! ### The immediate (R54) -/

/-- An immediate field is no wider than a register. -/
theorem imm12_le_bits (n : Xlen) : 12 ≤ n.bits := by cases n <;> decide

/-- A bit vector read unsigned is its signed reading modulo 2 to its width. -/
theorem toNat_eq_toInt_emod {n : Nat} (x : BitVec n) : (x.toNat : Int) = x.toInt % 2 ^ n := by
  have h := Int.bmod_emod (x := x.toNat) (m := 2 ^ n)
  rw [← BitVec.toInt_eq_toNat_bmod, ← Int.natCast_emod, Nat.mod_eq_of_lt x.isLt] at h
  push_cast at h
  exact h.symm

/-- Sign extension keeps the signed value. -/
theorem immx_toInt (n : Xlen) (imm12 : Imm12) : (immx n imm12).toInt = imm12.toInt :=
  BitVec.toInt_signExtend_of_le (imm12_le_bits n)

theorem imm12_toInt (imm12 : Imm12) :
    imm12.toInt = if imm12.toNat < 0x800 then (imm12.toNat : Int) else imm12.toNat - 4096 := by
  rw [BitVec.toInt_eq_toNat_cond]
  split <;> split <;> omega

theorem immx_toNat (n : Xlen) (imm12 : Imm12) :
    (immx n imm12).toNat = if imm12.toNat < 0x800 then imm12.toNat else imm12.toNat + 2 ^ n.bits - 4096 := by
  have hwide : 2 ^ 12 ≤ 2 ^ n.bits := Nat.pow_le_pow_right (by decide) (imm12_le_bits n)
  have hlt : imm12.toNat < 2 ^ 12 := imm12.isLt
  rw [immx, BitVec.toNat_signExtend, BitVec.toNat_setWidth, Nat.mod_eq_of_lt (hlt.trans_le hwide),
    BitVec.msb_eq_decide]
  simp only [decide_eq_true_eq]
  split <;> split <;> omega

/-! ### What the execute phase does, for `rd` other than 0 and for `rd = 0` (R61, R84) -/

/-- With `rd` other than 0 an instruction writes its result to `rd` and changes nothing else. -/
theorem exec_writesOnly (s : State) {i : Instr} (h : i.rd ≠ 0#5) :
    ∃ t, exec i s = .next t ∧ WritesOnly s t i.rd (resultOf i s).toNat := by
  refine ⟨_, exec_eq_writeBack i s, ?_⟩
  rw [writeBack_of_ne_zero s h]
  exact s.setReg_writesOnly h _

/-- With `rd = 0` under `fault` an instruction raises Reserved-Register-Write and changes nothing else. -/
theorem exec_raisesOnly (s : State) {i : Instr} (h : i.rd = 0#5) (hp : s.config.x0WritePolicy = .fault) :
    ∃ t, exec i s = .next t ∧ RaisesOnly s t (.reservedRegisterWrite s.fpc (encode i)) := by
  refine ⟨_, exec_eq_writeBack i s, ?_⟩
  rw [writeBack_of_fault s h hp]
  exact s.raise_raisesOnly _

/-- The step of a Running hart that fetches an unknown word raises Decode with its address and itself (R142). -/
theorem step_of_unknown {w : InstrWord} (hs : s.status = .running) (hw : s.fetch = some w)
    (hd : decode w = .unknown) : step s = .next (s.advancePc.raise (.decode s.pc w)) := by
  rw [step_of_running hs, cycle_of_unknown hw hd]

/-! ### Copies and small constants (R63) -/

theorem resultOf_addi_zero_imm (s : State) (rd rs1 : RegIndex) :
    (resultOf (.addi rd rs1 0#12) s).toNat = s.regValue rs1 := by
  have hzero : immx s.config.xlen 0#12 = 0#_ := BitVec.eq_of_toNat_eq (immx_toNat _ _)
  simp [resultOf, alu, aluAdd, State.operandA, State.operandImm, hzero, State.regValue]

theorem resultOf_add_zero_reg (s : State) (rd rs1 : RegIndex) :
    (resultOf (.add rd rs1 0#5) s).toNat = s.regValue rs1 := by
  simp [resultOf, alu, aluAdd, State.operandA, State.operandReg, State.readReg, State.regValue]

theorem resultOf_addi_zero_reg (s : State) (rd : RegIndex) (imm12 : Imm12) :
    resultOf (.addi rd 0#5 imm12) s = immx s.config.xlen imm12 := by
  simp [resultOf, alu, aluAdd, State.operandA, State.operandImm, State.readReg]

end Sys2Proof.Machine

namespace Sys2Proof

open Machine

theorem SourceLine.assemble_copyByAddi (xd xs : RegIndex) :
    (SourceLine.copyByAddi xd.toNat xs.toNat).assemble = some (.addi xd xs 0#12) :=
  (Instr.addi xd xs 0#12).assemble_toSource

theorem SourceLine.assemble_copyByAdd (xd xs : RegIndex) :
    (SourceLine.copyByAdd xd.toNat xs.toNat).assemble = some (.add xd xs 0#5) :=
  (Instr.add xd xs 0#5).assemble_toSource

theorem toInt_ofInt_imm12 {imm : Int} (h1 : -2048 ≤ imm) (h2 : imm ≤ 2047) : (BitVec.ofInt 12 imm).toInt = imm :=
  BitVec.toInt_ofInt_eq_self (by decide) h1 (Int.lt_add_one_of_le h2)

theorem SourceLine.assemble_smallConstant (xd : RegIndex) {imm : Int} (h1 : -2048 ≤ imm) (h2 : imm ≤ 2047) :
    (SourceLine.smallConstant xd.toNat imm).assemble = some (.addi xd 0#5 (BitVec.ofInt 12 imm)) := by
  have h := (Instr.addi xd 0#5 (BitVec.ofInt 12 imm)).assemble_toSource
  rwa [Instr.toSource, toInt_ofInt_imm12 h1 h2] at h

/-- Settles O24: a known word is its instruction's encoding, and every instruction is well formed. -/
theorem encodeOfDecodeIsIdentity : Obligations.EncodeOfDecodeIsIdentity :=
  fun _ i h => ⟨encode_of_decode h, i.wellFormed_eq_true⟩

/-- Settles O19: sign extension keeps the signed value, which the top bit of the field decides. -/
theorem immediateIsSignExtended : Obligations.ImmediateIsSignExtended := by
  refine ⟨fun n imm12 => ⟨immx_toNat n imm12, ?_, ?_, ?_⟩, by decide⟩
  · rw [immx_toInt, imm12_toInt]
  · rw [immx_toInt]
    exact BitVec.le_toInt imm12
  · rw [immx_toInt]
    exact Int.le_of_lt_add_one BitVec.toInt_lt

/-- Settles O25: appending a field is multiplication by a power of two and addition. -/
theorem encodingIsSumOfPlacedFields : Obligations.EncodingIsSumOfPlacedFields := by
  refine ⟨encodeIShape_toNat, fun rd rs1 rs2 i funct3 funct7 h => ?_, fun n h1 h2 => ?_⟩
  · simp only [List.mem_cons, List.not_mem_nil, or_false, Prod.mk.injEq] at h
    obtain ⟨rfl, rfl, rfl⟩ | ⟨rfl, rfl, rfl⟩ | ⟨rfl, rfl, rfl⟩ | ⟨rfl, rfl, rfl⟩ | ⟨rfl, rfl, rfl⟩ |
      ⟨rfl, rfl, rfl⟩ | ⟨rfl, rfl, rfl⟩ | ⟨rfl, rfl, rfl⟩ := h
    all_goals exact encodeRShape_toNat _ _ rd rs1 rs2
  · rw [SourceImm.toField, BitVec.toNat_ofInt]
    omega

/-- Settles O27: rows that match one word agree on the bits both masks keep, which no two different rows do; the known
words are as many as the instructions, whose encoding is injective. -/
theorem knownWordsAreDisjointAndCounted : Obligations.KnownWordsAreDisjointAndCounted :=
  ⟨fun _ row row' hrow hrow' h h' =>
      opcodeTable_rows_differ_on_common_mask row hrow row' hrow' (OpcodeRow.value_and_mask_of_matches h h'),
    ncard_known_words, ncard_unknown_words⟩

/-- Settles O30: only the register form can fail to name an instruction, and `wellFormed` looks at that. -/
theorem sourceLinesAssemble : Obligations.SourceLinesAssemble := by
  refine ⟨SourceLine.isSome_assemble, Instr.assemble_toSource, fun xd xs1 n hn hd hs => ?_, by decide, by decide⟩
  have hwf : (SourceLine.addi xd xs1 (.field n)).wellFormed = true := by
    simp [SourceLine.wellFormed, registerNumberOk, SourceImm.wellFormed, hn, hd, hs]
  refine ⟨_, _, _, SourceLine.assemble_addi hwf, ?_, ?_, ?_⟩
  · exact Nat.mod_eq_of_lt (Nat.lt_succ_of_le hd)
  · exact Nat.mod_eq_of_lt (Nat.lt_succ_of_le hs)
  · exact Nat.mod_eq_of_lt (Nat.lt_succ_of_le hn)

/-- Settles O37: every instruction's encoding matches a row, so a word that matches none is unknown. -/
theorem unknownWordRaisesDecode : Obligations.UnknownWordRaisesDecode := by
  refine ⟨fun s w hs hw hrows => ?_, List.forall_iff_forall_mem.mp (by decide)⟩
  exact ⟨_, step_of_unknown hs hw (decode_eq_unknown_of_no_row hrows), s.advancePc.raise_raisesOnly _,
    raise_runIsOver s.advancePc _⟩

/-- Settles O53: the lines assemble to ADDI and ADD with a zero operand, whose results are the other operand. -/
theorem copiesAndConstantsAreOrdinaryInstructions : Obligations.CopiesAndConstantsAreOrdinaryInstructions := by
  refine ⟨⟨Op.ofMnemonic_eq_some_iff, by decide⟩, fun s xd xs hd => ?_, fun s xd imm hd h1 h2 => ?_, by decide,
    fun s _ _ _ => exec_raisesOnly s⟩
  · obtain ⟨t, ht, hwt⟩ := exec_writesOnly s (i := .addi xd xs 0#12) hd
    obtain ⟨u, hu, hwu⟩ := exec_writesOnly s (i := .add xd xs 0#5) hd
    rw [resultOf_addi_zero_imm] at hwt
    rw [resultOf_add_zero_reg] at hwu
    exact ⟨_, _, t, u, SourceLine.assemble_copyByAddi xd xs, SourceLine.assemble_copyByAdd xd xs, ht, hwt, hu, hwu⟩
  · obtain ⟨t, ht, hwt⟩ := exec_writesOnly s (i := .addi xd 0#5 (BitVec.ofInt 12 imm)) hd
    refine ⟨_, t, _, SourceLine.assemble_smallConstant xd h1 h2, ht, hwt, ?_⟩
    rw [resultOf_addi_zero_reg, toNat_eq_toInt_emod, immx_toInt, toInt_ofInt_imm12 h1 h2]

/-- Settles O29, by evaluating the decoder on the five words. -/
theorem sampleWordsDecode : Obligations.SampleWordsDecode := by
  unfold Obligations.SampleWordsDecode
  decide

end Sys2Proof
end

section
/-!
PROOFS, 40_decoder.md. A row of the opcode table as the codes it asks for (R56 to R58), the decoder as that table (R75), and
the operation tag and the codes of a word, which determine each other (R73).
-/

namespace Sys2Proof

/-! ### The rows of the opcode table (R58) -/

theorem opcodeTable_addi_row : ∀ row ∈ opcodeTable, row.op = .addi →
    row.mask = 0x0000707F#32 ∧ row.value = 0x00000013#32 := by decide

/-- A row of an R-shape operation keeps all three codes, and its value is a word of those codes with the operands 0. -/
theorem opcodeTable_rShape_row : ∀ row ∈ opcodeTable, row.op ≠ .addi →
    row.mask = 0xFE00707F#32 ∧ opcodeOf row.value = 0x33#7 ∧
      row.value = encodeRShape (funct3Of row.value) (funct7Of row.value) 0 0 0 := by decide

theorem opcodeTable_row_eq_of_op_eq :
    ∀ row ∈ opcodeTable, ∀ row' ∈ opcodeTable, row.op = row'.op → row = row' := by decide

/-- A word matches a row exactly when it has the codes of the row's value: opcode, funct3 and, but for ADDI, funct7. -/
theorem OpcodeRow.matches_iff_codes {row : OpcodeRow} (hrow : row ∈ opcodeTable) (w : InstrWord) :
    row.matches w = true ↔
      opcodeOf w = opcodeOf row.value ∧ funct3Of w = funct3Of row.value ∧
        (row.op = .addi ∨ funct7Of w = funct7Of row.value) := by
  rw [OpcodeRow.matches, decide_eq_true_iff]
  by_cases hop : row.op = .addi
  · obtain ⟨hmask, hvalue⟩ := opcodeTable_addi_row row hrow hop
    have hopcode : opcodeOf 0x00000013#32 = 0x13#7 := by decide
    have hfunct3 : funct3Of 0x00000013#32 = 0x0#3 := by decide
    rw [hmask, hvalue, iShape_row_iff, hopcode, hfunct3]
    simp only [hop, true_or, and_true]
  · obtain ⟨hmask, hopcode, hvalue⟩ := opcodeTable_rShape_row row hrow hop
    simp only [hop, false_or]
    rw [hmask, hopcode, ← rShape_row_iff, ← hvalue]

/-- The instruction of an R-shape row is encoded with the codes of the row's value. -/
theorem OpcodeRow.exists_rInstr {row : OpcodeRow} (hrow : row ∈ opcodeTable) (hop : row.op ≠ .addi)
    (rd rs1 rs2 : RegIndex) :
    ∃ i, row.op.rInstr rd rs1 rs2 = some i ∧
      encode i = encodeRShape (funct3Of row.value) (funct7Of row.value) rd rs1 rs2 := by
  simp only [opcodeTable, List.mem_cons, List.not_mem_nil, or_false] at hrow
  obtain rfl | rfl | rfl | rfl | rfl | rfl | rfl | rfl | rfl := hrow
  · exact absurd rfl hop
  all_goals exact ⟨_, rfl, rfl⟩

/-! ### The decoder answers the row a word matches (R75) -/

theorem decode_of_matches_addi {row : OpcodeRow} {w : InstrWord} (hrow : row ∈ opcodeTable)
    (hw : row.matches w = true) (hop : row.op = .addi) :
    decode w = .known (.addi (rdOf w) (rs1Of w) (imm12Of w)) := by
  obtain ⟨hmask, hvalue⟩ := opcodeTable_addi_row row hrow hop
  rw [OpcodeRow.matches, decide_eq_true_iff, hmask, hvalue] at hw
  obtain ⟨hopcode, hfunct3⟩ := (iShape_row_iff w).mp hw
  exact decode_eq_known_iff.mpr (encodeIShape_fields hopcode hfunct3)

theorem decode_of_matches_rShape {row : OpcodeRow} {w : InstrWord} (hrow : row ∈ opcodeTable)
    (hw : row.matches w = true) (hop : row.op ≠ .addi) :
    ∃ i, row.op.rInstr (rdOf w) (rs1Of w) (rs2Of w) = some i ∧ decode w = .known i := by
  obtain ⟨hopcode, hfunct3, hfunct7⟩ := (OpcodeRow.matches_iff_codes hrow w).mp hw
  obtain ⟨-, hvalue, -⟩ := opcodeTable_rShape_row row hrow hop
  obtain ⟨i, hi, henc⟩ := OpcodeRow.exists_rInstr hrow hop (rdOf w) (rs1Of w) (rs2Of w)
  rw [← hfunct3, ← hfunct7.resolve_left hop, encodeRShape_fields (hopcode.trans hvalue)] at henc
  exact ⟨i, hi, decode_eq_known_iff.mpr henc⟩

theorem decode_ne_unknown_of_matches {row : OpcodeRow} {w : InstrWord} (hrow : row ∈ opcodeTable)
    (hw : row.matches w = true) : decode w ≠ .unknown := by
  by_cases hop : row.op = .addi
  · rw [decode_of_matches_addi hrow hw hop]
    exact Decoded.noConfusion
  · obtain ⟨i, -, hd⟩ := decode_of_matches_rShape hrow hw hop
    rw [hd]
    exact Decoded.noConfusion

theorem decode_eq_unknown_iff_no_row {w : InstrWord} :
    decode w = .unknown ↔ ∀ row ∈ opcodeTable, row.matches w = false := by
  constructor
  · intro h row hrow
    exact Bool.eq_false_of_not_eq_true fun hw => decode_ne_unknown_of_matches hrow hw h
  · exact fun h => decode_eq_unknown_of_no_row fun row hrow => of_decide_eq_false (h row hrow)

/-! ### The operation tag and the codes (R73) -/

/-- A known word matches the row of its operation. -/
theorem exists_row_matches_of_decode {w : InstrWord} {i : Instr} (h : decode w = .known i) :
    ∃ row ∈ opcodeTable, row.op = i.op ∧ row.matches w = true :=
  encode_of_decode h ▸ i.exists_row_matches_encode

/-- The instruction of a known word has the word's fields as its operands. -/
theorem fields_of_decode {w : InstrWord} {i : Instr} (h : decode w = .known i) :
    i = .addi (rdOf w) (rs1Of w) (imm12Of w) ∨ i.op.rInstr (rdOf w) (rs1Of w) (rs2Of w) = some i := by
  obtain ⟨row, hrow, hop, hw⟩ := exists_row_matches_of_decode h
  by_cases haddi : row.op = .addi
  · exact .inl (Decoded.known.inj (h.symm.trans (decode_of_matches_addi hrow hw haddi)))
  · obtain ⟨j, hj, hd⟩ := decode_of_matches_rShape hrow hw haddi
    obtain rfl : i = j := Decoded.known.inj (h.symm.trans hd)
    exact .inr (hop ▸ hj)

/-- Known words of one operation match one row; a word with the codes of another matches that word's row as well as its
own, and no word matches two rows. -/
theorem op_eq_iff_codes_eq {w w' : InstrWord} {i i' : Instr} (h : decode w = .known i) (h' : decode w' = .known i') :
    i.op = i'.op ↔
      opcodeOf w = opcodeOf w' ∧ funct3Of w = funct3Of w' ∧ (i.op = .addi ∨ funct7Of w = funct7Of w') := by
  obtain ⟨row, hrow, hop, hw⟩ := exists_row_matches_of_decode h
  obtain ⟨row', hrow', hop', hw'⟩ := exists_row_matches_of_decode h'
  obtain ⟨hopcode, hfunct3, hfunct7⟩ := (OpcodeRow.matches_iff_codes hrow w).mp hw
  rw [← hop, ← hop']
  constructor
  · intro heq
    obtain rfl := opcodeTable_row_eq_of_op_eq row hrow row' hrow' heq
    obtain ⟨hopcode', hfunct3', hfunct7'⟩ := (OpcodeRow.matches_iff_codes hrow w').mp hw'
    refine ⟨hopcode.trans hopcode'.symm, hfunct3.trans hfunct3'.symm, or_iff_not_imp_left.mpr fun hne => ?_⟩
    exact (hfunct7.resolve_left hne).trans (hfunct7'.resolve_left hne).symm
  · rintro ⟨hopcodes, hfunct3s, hfunct7s⟩
    have hw'row : row.matches w' = true := by
      rw [OpcodeRow.matches_iff_codes hrow, ← hopcodes, ← hfunct3s]
      refine ⟨hopcode, hfunct3, or_iff_not_imp_left.mpr fun hne => ?_⟩
      exact (hfunct7s.resolve_left hne).symm.trans (hfunct7.resolve_left hne)
    exact congrArg OpcodeRow.op (opcodeTable_rows_differ_on_common_mask row hrow row' hrow'
      (OpcodeRow.value_and_mask_of_matches hw'row hw'))

/-- Each operation is some instruction's. -/
theorem Op.exists_instr (op : Op) : ∃ i : Instr, i.op = op := by
  cases op with
  | addi => exact ⟨.addi 0 0 0, rfl⟩
  | add => exact ⟨.add 0 0 0, rfl⟩
  | sub => exact ⟨.sub 0 0 0, rfl⟩
  | sll => exact ⟨.sll 0 0 0, rfl⟩
  | sltu => exact ⟨.sltu 0 0 0, rfl⟩
  | xor => exact ⟨.xor 0 0 0, rfl⟩
  | srl => exact ⟨.srl 0 0 0, rfl⟩
  | or => exact ⟨.or 0 0 0, rfl⟩
  | and => exact ⟨.and 0 0 0, rfl⟩

/-- Settles O23: each field of an encoded word is the operand or code put there, so the decoder reads the instruction
back whatever its operands. -/
theorem decodeOfEncodeIsIdentity : Obligations.DecodeOfEncodeIsIdentity :=
  fun i _ => decode_encode i

/-- Settles O26: a word that matches a row is the encoding of that row's instruction with the word's own fields. -/
theorem decoderAgreesWithOpcodeTable : Obligations.DecoderAgreesWithOpcodeTable :=
  fun _ => ⟨decode_eq_unknown_iff_no_row, fun _ hrow hw =>
    ⟨decode_of_matches_addi hrow hw, decode_of_matches_rShape hrow hw⟩⟩

/-- Settles O28: the row of the opcode table that a word matches stands for its operation and for its codes. -/
theorem operationAndCodesDetermineEachOther : Obligations.OperationAndCodesDetermineEachOther := by
  refine ⟨fun _ _ _ _ => op_eq_iff_codes_eq, fun _ _ => fields_of_decode, fun op => ?_⟩
  obtain ⟨i, hi⟩ := op.exists_instr
  exact ⟨encode i, i, decode_encode i, hi⟩

end Sys2Proof
end

section
/-!
PROOFS, 41_add_sub_addi.md. The words that decode to an instruction of either shape as a row of the opcode table with operand
fields (R58), the sum and the difference modulo 2^XLEN for both readings of the operands (R90), and ADDI, ADD and SUB (R91 to
R93).
-/

namespace Sys2Proof

/-! ### The words of one instruction (R52, R53, R58) -/

theorem encodeIShape_eq_iff {w : InstrWord} {rd rs1 : RegIndex} {imm12 : Imm12} :
    encodeIShape rd rs1 imm12 = w ↔
      w &&& 0x0000707F#32 = 0x00000013#32 ∧ rdOf w = rd ∧ rs1Of w = rs1 ∧ imm12Of w = imm12 := by
  rw [iShape_row_iff]
  constructor
  · rintro rfl
    simp
  · rintro ⟨⟨hopcode, hfunct3⟩, rfl, rfl, rfl⟩
    exact encodeIShape_fields hopcode hfunct3

theorem encodeRShape_eq_iff {w : InstrWord} {funct3 : BitVec 3} {funct7 : BitVec 7} {rd rs1 rs2 : RegIndex} :
    encodeRShape funct3 funct7 rd rs1 rs2 = w ↔
      w &&& 0xFE00707F#32 = encodeRShape funct3 funct7 0 0 0 ∧ rdOf w = rd ∧ rs1Of w = rs1 ∧ rs2Of w = rs2 := by
  rw [rShape_row_iff]
  constructor
  · rintro rfl
    simp
  · rintro ⟨⟨hopcode, rfl, rfl⟩, rfl, rfl, rfl⟩
    exact encodeRShape_fields hopcode

end Sys2Proof

namespace Sys2Proof.Machine

/-! ### The ALU's sum and difference (R90) -/

section
variable {n : Xlen} (a b : Word n)

theorem aluAdd_toNat : (aluAdd a b).toNat = (a.toNat + b.toNat) % 2 ^ n.bits := BitVec.toNat_add a b

theorem aluSub_toNat : (aluSub a b).toNat = (a.toNat + (2 ^ n.bits - b.toNat)) % 2 ^ n.bits := by
  rw [aluSub, BitVec.toNat_sub, Nat.add_comm]

theorem aluAdd_eq_toInt_add_emod : ((aluAdd a b).toNat : Int) = (a.toInt + b.toInt) % 2 ^ n.bits := by
  rw [aluAdd, toNat_eq_toInt_emod, BitVec.toInt_add]
  exact_mod_cast Int.bmod_emod

theorem aluSub_eq_toInt_sub_emod : ((aluSub a b).toNat : Int) = (a.toInt - b.toInt) % 2 ^ n.bits := by
  rw [aluSub, toNat_eq_toInt_emod, BitVec.toInt_sub]
  exact_mod_cast Int.bmod_emod

/-- The unsigned readings differ as the signed ones do, since each is its signed reading modulo 2^XLEN. -/
theorem aluSub_eq_toNat_sub_emod : ((aluSub a b).toNat : Int) = ((a.toNat : Int) - b.toNat) % 2 ^ n.bits := by
  rw [aluSub_eq_toInt_sub_emod, toNat_eq_toInt_emod a, toNat_eq_toInt_emod b, ← Int.sub_emod]

end

/-! ### The results of ADDI, ADD and SUB (R91 to R93) -/

section
variable (s : State) (rd rs1 rs2 : RegIndex)

theorem resultOf_addi_toNat (imm12 : Imm12) :
    (resultOf (.addi rd rs1 imm12) s).toNat =
      (s.regValue rs1 +
          (if imm12.toNat < 0x800 then imm12.toNat else imm12.toNat + 2 ^ s.config.xlen.bits - 4096)) %
        2 ^ s.config.xlen.bits := by
  rw [← immx_toNat]
  exact aluAdd_toNat _ _

theorem resultOf_add_toNat :
    (resultOf (.add rd rs1 rs2) s).toNat = (s.regValue rs1 + s.regValue rs2) % 2 ^ s.config.xlen.bits :=
  aluAdd_toNat _ _

theorem resultOf_sub_toNat :
    (resultOf (.sub rd rs1 rs2) s).toNat =
      (s.regValue rs1 + (2 ^ s.config.xlen.bits - s.regValue rs2)) % 2 ^ s.config.xlen.bits :=
  aluSub_toNat _ _

end

end Sys2Proof.Machine

namespace Sys2Proof

open Machine

/-- Settles O9: the encoding of ADDI determines its row and fields, and the result is the ALU's sum with the sign-extended
immediate. -/
theorem addiWritesSumWithSignExtendedImmediate : Obligations.AddiWritesSumWithSignExtendedImmediate := by
  intro s rd rs1 imm12
  refine ⟨fun w => decode_eq_known_iff.trans encodeIShape_eq_iff, fun hrd => ?_,
    exec_raisesOnly s (i := .addi rd rs1 imm12)⟩
  rw [← resultOf_addi_toNat s rd]
  exact exec_writesOnly s (i := .addi rd rs1 imm12) hrd

/-- Settles O10: the encoding of ADD determines its row and fields, and the result is the ALU's sum. -/
theorem addWritesWrappedSum : Obligations.AddWritesWrappedSum := by
  intro s rd rs1 rs2
  refine ⟨fun w => decode_eq_known_iff.trans encodeRShape_eq_iff, fun hrd => ?_,
    exec_raisesOnly s (i := .add rd rs1 rs2)⟩
  rw [← resultOf_add_toNat s rd]
  exact exec_writesOnly s (i := .add rd rs1 rs2) hrd

/-- Settles O11: the encoding of SUB determines its row and fields, and the result is the ALU's difference, first source minus
second (D10). -/
theorem subWritesWrappedDifference : Obligations.SubWritesWrappedDifference := by
  intro s rd rs1 rs2
  refine ⟨fun w => decode_eq_known_iff.trans encodeRShape_eq_iff, fun hrd => ?_,
    exec_raisesOnly s (i := .sub rd rs1 rs2)⟩
  rw [← resultOf_sub_toNat s rd]
  exact exec_writesOnly s (i := .sub rd rs1 rs2) hrd

/-- Settles O20: with `rd` other than 0 an instruction keeps the fault record; the signed and the unsigned reading of an operand
are congruent modulo 2^XLEN, so their sums and differences are. -/
theorem addAndSubWrapForBothReadings : Obligations.AddAndSubWrapForBothReadings := by
  refine ⟨fun s i _ hrd => ?_, fun n a b => ?_⟩
  · obtain ⟨t, ht, -, -, -, hfault, -, -⟩ := exec_writesOnly s hrd
    exact ⟨t, ht, hfault⟩
  · exact ⟨aluAdd_toNat a b, aluAdd_toNat a b, aluSub_eq_toNat_sub_emod a b, aluAdd_eq_toInt_add_emod a b,
      aluAdd_eq_toInt_add_emod a b, aluSub_eq_toInt_sub_emod a b⟩

end Sys2Proof
end

section
/-!
PROOFS, 42_shift.md. The shift amount (R100), the left and the logical right shift as a product and a quotient, and SLL and SRL
(R101, R102).
-/

namespace Sys2Proof.Machine

/-! ### The shift amount (R100) -/

section
variable {n : Xlen}

/-- Reduction modulo 32 keeps bits 0 to 4. -/
theorem testBit_shiftAmount (b : Word n) (k : Nat) : (shiftAmount b).testBit k = (decide (k < 5) && b.getLsbD k) :=
  Nat.testBit_mod_two_pow b.toNat 5 k

theorem shiftAmount_eq_of_low_five_bits {b c : Word n} (h : ∀ k, k < 5 → b.getLsbD k = c.getLsbD k) :
    shiftAmount b = shiftAmount c := by
  apply Nat.eq_of_testBit_eq
  intro k
  rw [testBit_shiftAmount, testBit_shiftAmount]
  by_cases hk : k < 5
  · rw [h k hk]
  · simp only [hk, decide_false, Bool.false_and]

/-! ### The ALU's shifts (R101, R102) -/

theorem aluSll_toNat (a b : Word n) : (aluSll a b).toNat = (a.toNat * 2 ^ (b.toNat % 32)) % 2 ^ n.bits := by
  rw [aluSll, BitVec.toNat_shiftLeft, Nat.shiftLeft_eq, shiftAmount]

theorem aluSrl_toNat (a b : Word n) : (aluSrl a b).toNat = a.toNat / 2 ^ (b.toNat % 32) := by
  rw [aluSrl, BitVec.toNat_ushiftRight, Nat.shiftRight_eq_div_pow, shiftAmount]

end

/-! ### The results of SLL and SRL (R101, R102) -/

section
variable (s : State) (rd rs1 rs2 : RegIndex)

theorem resultOf_sll_toNat :
    (resultOf (.sll rd rs1 rs2) s).toNat = (s.regValue rs1 * 2 ^ (s.regValue rs2 % 32)) % 2 ^ s.config.xlen.bits :=
  aluSll_toNat _ _

theorem resultOf_srl_toNat :
    (resultOf (.srl rd rs1 rs2) s).toNat = s.regValue rs1 / 2 ^ (s.regValue rs2 % 32) :=
  aluSrl_toNat _ _

end

/-- What is common to the R-shape instructions: the words that decode to one, the write of its result, and the fault with
`rd = 0`. -/
theorem rShape_words_and_effects (s : State) {i : Instr} {funct3 : BitVec 3} {funct7 : BitVec 7} {rs1 rs2 : RegIndex}
    {v : Nat} (henc : encode i = encodeRShape funct3 funct7 i.rd rs1 rs2) (hres : (resultOf i s).toNat = v) :
    (∀ w, decode w = .known i ↔
      w &&& 0xFE00707F#32 = encodeRShape funct3 funct7 0 0 0 ∧ rdOf w = i.rd ∧ rs1Of w = rs1 ∧ rs2Of w = rs2) ∧
    (i.rd ≠ 0#5 → ∃ t, exec i s = .next t ∧ WritesOnly s t i.rd v) ∧
    (i.rd = 0#5 → s.config.x0WritePolicy = .fault → ∃ t, exec i s = .next t ∧
      RaisesOnly s t (.reservedRegisterWrite s.fpc (encode i))) := by
  refine ⟨fun w => ?_, fun hrd => hres ▸ exec_writesOnly s hrd, exec_raisesOnly s⟩
  rw [decode_eq_known_iff, henc]
  exact encodeRShape_eq_iff

end Sys2Proof.Machine

namespace Sys2Proof

open Machine

/-- Settles O12: SLL is the R-shape instruction whose result is the ALU's left shift, a product modulo 2^XLEN. -/
theorem sllWritesShiftedProduct : Obligations.SllWritesShiftedProduct :=
  fun s rd rs1 rs2 => rShape_words_and_effects s (i := .sll rd rs1 rs2) rfl (resultOf_sll_toNat s rd rs1 rs2)

/-- Settles O13: SRL is the R-shape instruction whose result is the ALU's logical right shift, a quotient. -/
theorem srlWritesFloorQuotient : Obligations.SrlWritesFloorQuotient :=
  fun s rd rs1 rs2 => rShape_words_and_effects s (i := .srl rd rs1 rs2) rfl (resultOf_srl_toNat s rd rs1 rs2)

/-- Settles O21: both shifts read their second operand through the shift amount, which its bits 0 to 4 determine. -/
theorem shiftAmountIsLowFiveBits : Obligations.ShiftAmountIsLowFiveBits := by
  intro n a b c h
  have hamount : shiftAmount b = shiftAmount c := shiftAmount_eq_of_low_five_bits h
  have hsll : aluSll a b = aluSll a c := by rw [aluSll, aluSll, hamount]
  have hsrl : aluSrl a b = aluSrl a c := by rw [aluSrl, aluSrl, hamount]
  exact ⟨hsll, hsrl, aluSll_toNat a b, aluSrl_toNat a b⟩

end Sys2Proof
end

section
/-!
PROOFS, 43_compare_logic.md. SLTU's result as a number and bit by bit, the bits of the three bitwise results (R110), and SLTU,
XOR, OR and AND (R111 to R114).
-/

namespace Sys2Proof.Machine

/-! ### The ALU's unsigned comparison (R111) -/

section
variable {n : Xlen} (a b : Word n)

theorem aluSltu_toNat : (aluSltu a b).toNat = if a.toNat < b.toNat then 1 else 0 := by
  have hone : (1#n.bits).toNat = 1 := by cases n <;> rfl
  by_cases hlt : a.toNat < b.toNat
  · simp only [aluSltu, unsignedLess, hlt, decide_true, if_true, hone]
  · simp only [aluSltu, unsignedLess, hlt, decide_false, if_false, Bool.false_eq_true, BitVec.toNat_zero]

theorem aluSltu_getLsbD_zero : (aluSltu a b).getLsbD 0 = decide (a.toNat < b.toNat) := by
  rw [BitVec.getLsbD, aluSltu_toNat]
  split <;> simp [*]

theorem aluSltu_getLsbD_of_pos {k : Nat} (hk : 1 ≤ k) : (aluSltu a b).getLsbD k = false := by
  rw [BitVec.getLsbD, aluSltu_toNat]
  apply Nat.testBit_lt_two_pow
  have hpow : 1 < 2 ^ k := Nat.one_lt_two_pow (by omega)
  split <;> omega

/-! ### The ALU's bitwise operations (R112 to R114) -/

variable (k : Nat)

theorem aluXor_getLsbD : (aluXor a b).getLsbD k = (a.getLsbD k ^^ b.getLsbD k) := BitVec.getLsbD_xor

theorem aluOr_getLsbD : (aluOr a b).getLsbD k = (a.getLsbD k || b.getLsbD k) := BitVec.getLsbD_or

theorem aluAnd_getLsbD : (aluAnd a b).getLsbD k = (a.getLsbD k && b.getLsbD k) := BitVec.getLsbD_and

end

/-! ### What the four instructions write (R111 to R114) -/

theorem resultOf_sltu_toNat (s : State) (rd rs1 rs2 : RegIndex) :
    (resultOf (.sltu rd rs1 rs2) s).toNat = if s.regValue rs1 < s.regValue rs2 then 1 else 0 :=
  aluSltu_toNat _ _

/-- What is common to the R-shape instructions whose result's bit `k` is one function `f` of bit `k` of each source: the
obligations describe the value they write by its bits. -/
theorem rShape_bitwise_words_and_effects (f : Bool → Bool → Bool) (s : State) {i : Instr} {funct3 : BitVec 3}
    {funct7 : BitVec 7} {rs1 rs2 : RegIndex} (henc : encode i = encodeRShape funct3 funct7 i.rd rs1 rs2)
    (hbit : ∀ k, (resultOf i s).getLsbD k = f ((s.readReg rs1).getLsbD k) ((s.readReg rs2).getLsbD k)) :
    (∀ w, decode w = .known i ↔
      w &&& 0xFE00707F#32 = encodeRShape funct3 funct7 0 0 0 ∧ rdOf w = i.rd ∧ rs1Of w = rs1 ∧ rs2Of w = rs2) ∧
    (i.rd ≠ 0#5 → ∃ t, exec i s = .next t ∧
      (∃ v, WritesOnly s t i.rd v ∧ v < 2 ^ s.config.xlen.bits ∧
        ∀ k, k < s.config.xlen.bits →
          v.testBit k = f ((s.regValue rs1).testBit k) ((s.regValue rs2).testBit k))) ∧
    (i.rd = 0#5 → s.config.x0WritePolicy = .fault → ∃ t, exec i s = .next t ∧
      RaisesOnly s t (.reservedRegisterWrite s.fpc (encode i))) := by
  obtain ⟨hwords, hwrites, hraises⟩ := rShape_words_and_effects s henc rfl
  refine ⟨hwords, fun hrd => ?_, hraises⟩
  obtain ⟨t, hexec, ht⟩ := hwrites hrd
  exact ⟨t, hexec, _, ht, (resultOf i s).isLt, fun k _ => hbit k⟩

end Sys2Proof.Machine

namespace Sys2Proof

open Machine

/-- Settles O14: SLTU is the R-shape instruction whose result is the ALU's unsigned comparison. -/
theorem sltuWritesUnsignedComparison : Obligations.SltuWritesUnsignedComparison :=
  fun s rd rs1 rs2 => rShape_words_and_effects s (i := .sltu rd rs1 rs2) rfl (resultOf_sltu_toNat s rd rs1 rs2)

/-- Settles O15: XOR is the R-shape instruction whose result bits are the exclusive or of its sources' bits. -/
theorem xorWritesBitwiseExclusiveOr : Obligations.XorWritesBitwiseExclusiveOr :=
  fun s rd rs1 rs2 => rShape_bitwise_words_and_effects _ s (i := .xor rd rs1 rs2) rfl (aluXor_getLsbD _ _)

/-- Settles O16: OR is the R-shape instruction whose result bits are the inclusive or of its sources' bits. -/
theorem orWritesBitwiseInclusiveOr : Obligations.OrWritesBitwiseInclusiveOr :=
  fun s rd rs1 rs2 => rShape_bitwise_words_and_effects _ s (i := .or rd rs1 rs2) rfl (aluOr_getLsbD _ _)

/-- Settles O17: AND is the R-shape instruction whose result bits are the and of its sources' bits. -/
theorem andWritesBitwiseAnd : Obligations.AndWritesBitwiseAnd :=
  fun s rd rs1 rs2 => rShape_bitwise_words_and_effects _ s (i := .and rd rs1 rs2) rfl (aluAnd_getLsbD _ _)

/-- Settles O22: each bitwise result's bit `k` is a function of bit `k` of the operands, SLTU's result is 0 or 1, and with `rd`
other than 0 an instruction completes. -/
theorem bitwiseResultBitsAreIndependent : Obligations.BitwiseResultBitsAreIndependent := by
  refine ⟨fun n a b c d k hac hbd => ?_, fun n a b => ?_, fun s i _ hrd => ?_⟩
  · have hxor : (aluXor a b).getLsbD k = (aluXor c d).getLsbD k := by rw [aluXor_getLsbD, aluXor_getLsbD, hac, hbd]
    have hor : (aluOr a b).getLsbD k = (aluOr c d).getLsbD k := by rw [aluOr_getLsbD, aluOr_getLsbD, hac, hbd]
    have hand : (aluAnd a b).getLsbD k = (aluAnd c d).getLsbD k := by rw [aluAnd_getLsbD, aluAnd_getLsbD, hac, hbd]
    exact ⟨hxor, hor, hand⟩
  · exact ⟨aluSltu_getLsbD_zero a b, fun _ => aluSltu_getLsbD_of_pos a b⟩
  · exact ⟨s.execute i, exec_eq_execute i s, (State.execute_completes fun _ => hrd).1⟩

end Sys2Proof
end

section
/-!
PROOFS, 44_sequencer.md. The two kinds of outcome of a Running hart's step (R121, R123), the registers after a list of
instructions (R134), and the end of every run (R127, R129, R130).
-/

namespace Sys2Proof.Machine

variable {s t : State} {m : Memory}

/-! ### The two kinds of outcome of a step (R121, R123) -/

/-- What a step that completes or raises changes: with pc + 4 and no fault, at most one register; with a fault, none (R121). -/
def CompletesOrRaises (s t : State) : Prop :=
  (t.fault = none ∧ t.pc = s.pc + 4 ∧ ∃ r, ∀ q, q ≠ r → t.regValue q = s.regValue q) ∨
    (t.fault ≠ none ∧ SameRegisters s t)

theorem raise_completesOrRaises {record : FaultRecord} (h : SameRegisters s t) :
    CompletesOrRaises s (t.raise record) :=
  .inr ⟨by simp, h⟩

theorem step_of_running_completesOrRaises (hs : s.status = .running) :
    ∃ t, step s = .next t ∧ CompletesOrRaises s t := by
  obtain ⟨t, ht, hcases⟩ := step_of_running_cases hs
  have hf := fault_eq_none_of_step ht
  refine ⟨t, ht, ?_⟩
  cases hcases with
  | missingProgram | badFetch | unknown | reserved => subst t; exact raise_completesOrRaises fun _ => rfl
  | halted hh => simp [hs] at hh
  | write _ w i _ _ hr =>
    subst t
    exact .inl ⟨hf, rfl, i.rd, fun q hq => (State.setReg_regValue _ hr _ q).trans (if_neg hq)⟩
  | discarded => subst t; exact .inl ⟨hf, rfl, 0#5, fun _ _ => rfl⟩

/-- Away from Running a next state is the same state, or Missing-Program raised in it (R129, R144). -/
theorem step_of_not_running_cases (hs : s.status ≠ .running) (h : step s = .next t) :
    t = s ∨ t = s.raise (.missingProgram s.pc) := by
  cases step_next_cases h with
  | missingProgram _ _ ht => exact .inr ht
  | halted _ ht => exact .inl ht
  | badFetch hr | unknown hr | write hr | reserved hr | discarded hr => exact absurd hr hs

/-- A step that answers a next state has no other way to the pc than the advance after a successful fetch (R123). -/
theorem step_pc_cases (h : step s = .next t) : t.pc = s.pc ∨ (s.fetch ≠ none ∧ t.pc = s.pc + 4) := by
  cases step_next_cases h with
  | missingProgram | halted | badFetch => subst t; exact .inl rfl
  | unknown _ w hw | write _ w _ hw | reserved _ w _ hw | discarded _ w _ hw =>
    subst t
    exact .inr ⟨by simp [hw], rfl⟩

/-- The advance does not depend on the word (R123). -/
theorem step_pc_of_fetch {w : InstrWord} (hs : s.status = .running) (hw : s.fetch = some w) :
    ∃ t, step s = .next t ∧ t.pc = s.pc + 4 := by
  obtain ⟨t, ht, hcases⟩ := step_of_running_cases hs
  refine ⟨t, ht, ?_⟩
  cases hcases with
  | missingProgram _ hp => simp [State.fetch, hp] at hw
  | halted hh => simp [hs] at hh
  | badFetch _ hw' => simp [hw] at hw'
  | unknown | write | reserved | discarded => subst t; rfl

/-- The execute phase runs in the state with the pc advanced (R121). -/
theorem step_of_decode {w : InstrWord} {i : Instr} (hs : s.status = .running) (hw : s.fetch = some w)
    (hd : decode w = .known i) : step s = exec i s.advancePc := by
  rw [step_of_running hs, cycle_of_known hw hd]

/-! ### The registers after instructions (R16, R134) -/

theorem State.execute_pc (s : State) (i : Instr) : (s.execute i).pc = s.pc := (writeBack_frame s i _).2

/-- An instruction leaves its result in `rd`, unless that is register 0, and every other register as it was; whether a write to
register 0 raises makes no difference to the registers. -/
theorem State.execute_regValue (s : State) (i : Instr) (q : RegIndex) :
    (s.execute i).regValue q = if i.rd ≠ 0#5 ∧ q = i.rd then (resultOf i s).toNat else s.regValue q := by
  obtain ⟨hr, hw⟩ | ⟨hr, -, hw⟩ | ⟨hr, -, hw⟩ := writeBack_cases s i (resultOf i s)
  · simp [State.execute, hw, State.setReg_regValue s hr, hr]
  all_goals simp [State.execute, hw, hr]

/-- Harts that agree on the parameters and the registers do so after an instruction, whatever their pc and fault record. -/
theorem State.execute_sameRegisters (hc : t.config = s.config) (h : SameRegisters s t) (i : Instr) :
    SameRegisters (s.execute i) (t.execute i) := fun q => by
  rw [State.execute_regValue, State.execute_regValue, resultOf_toNat_congr i hc fun r _ => h r, h q]

theorem foldl_execute_sameRegisters (is : List Instr) (hc : t.config = s.config) (h : SameRegisters s t) :
    SameRegisters (is.foldl State.execute s) (is.foldl State.execute t) := by
  induction is generalizing s t with
  | nil => exact h
  | cons i rest ih =>
    obtain ⟨hs, -⟩ := s.execute_sameParameters i
    obtain ⟨ht, -⟩ := t.execute_sameParameters i
    exact ih (ht.trans (hc.trans hs.symm)) (State.execute_sameRegisters hc h i)

/-! ### The end of a run (R127, R130) -/

theorem State.stepBound_of_program (hp : s.program = some m) : s.stepBound = m.len / 4 + 1 := by
  simp [State.stepBound, State.programLength, hp]

/-- What a loop of at most `fuel` rounds ends with: a state that is not Running, which at most `fuel` steps reach. -/
def LoopEnds (fuel : Nat) (s : State) (o : Host.Outcome State Fault Refusal) : Prop :=
  ∃ t, o = .next t ∧ t.status ≠ .running ∧ ∃ k, k ≤ fuel ∧ Host.Core.run Sys2Proof.core k s = .next t

theorem loopEnds_of_not_running (hs : s.status ≠ .running) (fuel : Nat) : LoopEnds fuel s (.next s) :=
  ⟨s, rfl, hs, 0, Nat.zero_le _, rfl⟩

/-- A step before the loop is one more of its steps. -/
theorem LoopEnds.of_step {fuel : Nat} {o : Host.Outcome State Fault Refusal} (h : step s = .next t)
    (ht : LoopEnds fuel t o) : LoopEnds (fuel + 1) s o := by
  obtain ⟨u, ho, hu, k, hk, hrun⟩ := ht
  exact ⟨u, ho, hu, k + 1, Nat.succ_le_succ hk, coreRun_succ_eq_next_iff.mpr ⟨t, h, hrun⟩⟩

/-- Every step of a Running hart raises, after which it is not Running, or brings the pc four bytes nearer to LEN: the loop ends
when its rounds are enough for the bytes from the pc to LEN (R127). -/
theorem runLoop_ends (hp : s.program = some m) {fuel : Nat} (hfuel : s.status = .running → m.len < s.pc + 4 * fuel) :
    LoopEnds fuel s (runLoop fuel s) := by
  induction fuel generalizing s with
  | zero =>
    refine loopEnds_of_not_running (fun hs => ?_) 0
    obtain ⟨-, m', hp', hlt⟩ := State.exists_of_running hs
    obtain rfl : m = m' := Option.some_inj.mp (hp.symm.trans hp')
    have hpc := hfuel hs
    omega
  | succ fuel ih =>
    by_cases hs : s.status = .running
    · obtain ⟨t, ht, hout⟩ := step_of_running_completesOrRaises hs
      rw [runLoop_of_running hs ht]
      refine .of_step ht (ih ((step_sameParameters ht).2.trans hp) fun hrun => ?_)
      obtain ⟨hfault, -⟩ := State.exists_of_running hrun
      obtain ⟨-, hpc, -⟩ | ⟨hraised, -⟩ := hout
      · have hlen := hfuel hs
        omega
      · exact absurd hfault hraised
    · rw [runLoop_of_not_running hs]
      exact loopEnds_of_not_running hs _

theorem run_ends (s : State) : LoopEnds s.stepBound s (run s) := by
  cases hp : s.program with
  | some m =>
    rw [run_eq_runLoop hp, State.stepBound_of_program hp]
    exact runLoop_ends hp fun _ => by omega
  | none =>
    cases hf : s.fault with
    | none =>
      rw [run_of_noProgram hf hp]
      have hs := State.status_of_fault (s.raise_fault (.missingProgram s.pc))
      exact .of_step (step_of_noProgram hf hp) (loopEnds_of_not_running (by simp [hs]) _)
    | some record =>
      have hs := State.status_of_fault hf
      rw [run_of_terminal (.inr hs)]
      exact loopEnds_of_not_running (by simp [hs]) _

/-- The run of an image of instructions which complete ends Halted with the pc at LEN, after as many steps (R130). -/
theorem run_of_straightLine (c : Config) {is : List Instr} (his : ∀ i ∈ is, c.x0WritePolicy = .fault → i.rd ≠ 0#5) :
    ∃ t, run (create c (some (imageOf is))) = .next t ∧
      Host.Core.run Sys2Proof.core is.length (create c (some (imageOf is))) = .next t ∧
      t = (is.foldl State.execute (create c (some (imageOf is)))).withPc (4 * is.length) ∧
      t.status = .halted := by
  have hrun := run_create_imageOf c [] his
  have hsteps := coreRun_of_holds (s := create c (some (imageOf is ++ []))) rfl rfl his
    (Memory.ofBytes_holds [] [] is rfl)
  have hlen := Memory.len_ofBytes_imageOf_append is []
  rw [List.append_nil] at hrun hsteps hlen
  obtain ⟨⟨-, hprog⟩, hfault⟩ := foldl_execute_frame (s := create c (some (imageOf is))) his
  generalize is.foldl State.execute (create c (some (imageOf is))) = u at *
  have hhalted : (u.withPc (4 * is.length)).status = .halted :=
    State.status_eq_halted_iff.mpr ⟨hfault, _, hprog, hlen.le⟩
  rw [runLoop_of_not_running (by simp [hhalted])] at hrun
  rw [List.length_nil, Nat.zero_add] at hsteps
  exact ⟨_, hrun, hsteps, rfl, hhalted⟩

end Sys2Proof.Machine

namespace Sys2Proof

open Machine

/-- Settles O32: the fetch fails or answers the word at the pc, a step completes or raises, and away from Running it is at most
Missing-Program. -/
theorem runningStepFetchesAdvancesDecodesExecutes : Obligations.RunningStepFetchesAdvancesDecodesExecutes := by
  refine ⟨fun s m hf hp hlt => ?_, fun s t hs h => ?_⟩
  · have hs := State.status_eq_running_iff.mpr ⟨hf, m, hp, hlt⟩
    refine ⟨fun hbad => step_of_misaligned_or_outOfBounds hf hp hlt (by omega), fun haligned hbound => ?_,
      step_of_running_completesOrRaises hs⟩
    have hw : s.fetch = some (m.readWord s.pc) :=
      (State.fetch_of_program hp).trans (Memory.fetch_eq_some_iff.mpr ⟨haligned, by omega, rfl⟩)
    exact ⟨step_of_unknown hs hw, fun i => step_of_decode hs hw⟩
  · obtain rfl | rfl := step_of_not_running_cases hs h
    all_goals exact ⟨rfl, fun _ => rfl⟩

/-- Settles O33: the advance is the only change of the pc, and the four bytes of a fetched word are below LEN. -/
theorem pcAdvancesByFourUnconditionally : Obligations.PcAdvancesByFourUnconditionally := by
  refine ⟨fun s w => step_pc_of_fetch, fun i s t h => ?_, fun s t => step_pc_cases, fun s m pclen hp hw hlen => ?_⟩
  · rw [exec_eq_execute] at h
    cases h
    exact s.execute_pc i
  · have hfour := State.pc_add_four_le_of_fetch hp hw
    exact Nat.mod_eq_of_lt (by omega)

/-- Settles O34: the two states agree on parameters and registers, and every instruction keeps that. -/
theorem registerEffectIsIndependentOfPosition : Obligations.RegisterEffectIsIndependentOfPosition :=
  fun is s pc => ⟨_, _, execAll_eq_foldl is s, execAll_eq_foldl is (s.withPc pc),
    foldl_execute_sameRegisters is (s.withPc_config pc) fun _ => rfl⟩

/-- Settles O49: the loop's bound is enough for the bytes of the buffer, and straight-line code takes a step an instruction. -/
theorem everyRunEndsAndStraightLineCodeCompletes : Obligations.EveryRunEndsAndStraightLineCodeCompletes := by
  refine ⟨run_ends, fun s hs => ?_, fun c is his => ?_⟩
  · exact exists_step_of_fault_none (State.exists_of_running hs).1
  · obtain ⟨t, hrun, hsteps, ht, hhalted⟩ := run_of_straightLine c his
    obtain ⟨hfault, -⟩ := State.status_eq_halted_iff.mp hhalted
    have hpc : t.pc = 4 * is.length := congrArg State.pc ht
    refine ⟨t, _, hrun, hhalted, hfault, hpc, hpc.trans (imageOf_length is).symm, hsteps,
      execAll_eq_foldl is _, fun _ => ?_⟩
    rw [ht, State.withPc_regValue]

/-- Settles O31, by the branch of the cycle for a known word. -/
theorem stepExecutesDecodedInstruction : Obligations.StepExecutesDecodedInstruction :=
  fun _ _ _ => step_of_decode

/-- Settles O48: `run` takes no step on a hart whose run is over. -/
theorem runOnTerminalHartChangesNothing : Obligations.RunOnTerminalHartChangesNothing :=
  fun _ => run_of_terminal

end Sys2Proof
end

section
/-!
PROOFS, 60_exceptions.md. The steps that raise a fault and what they leave (R143, R147), the order of a step's checks (R148), and
the precision of a fault: the pc never goes back, so a fault that a run ends with at an address is raised by the step there
(R149).
-/

namespace Sys2Proof.Machine

variable {s t : State} {m : Memory} {record : FaultRecord}

/-! ### A known word's step raises, or leaves the fault record as it was (R143) -/

/-- The record's word is the fetched one, since a known word is its instruction's encoding. -/
theorem step_of_rd_zero {w : InstrWord} {i : Instr} (hs : s.status = .running) (hw : s.fetch = some w)
    (hd : decode w = .known i) (hr : i.rd = 0#5) (hp : s.config.x0WritePolicy = .fault) :
    step s = .next (s.advancePc.raise (.reservedRegisterWrite s.pc w)) := by
  rw [step_of_known hs hw hd, writeBack_of_fault s.advancePc hr hp, encode_of_decode hd, State.advancePc_fpc]

/-- An instruction that is no faulting write to register 0 raises nothing. -/
theorem step_of_completing {w : InstrWord} {i : Instr} (hs : s.status = .running) (hw : s.fetch = some w)
    (hd : decode w = .known i) (hi : ¬(i.rd = 0#5 ∧ s.config.x0WritePolicy = .fault)) :
    ∃ t, step s = .next t ∧ t.fault = none := by
  obtain ⟨hfault, -⟩ := State.execute_completes (s := s.advancePc) fun hp hr => hi ⟨hr, hp⟩
  obtain ⟨hf, -⟩ := State.exists_of_running hs
  exact ⟨_, step_of_known hs hw hd, hfault.trans hf⟩

/-! ### The order of the checks (R148) -/

/-- The fetch answers the word at the pc where the precondition holds, as the spec writes it (R34). -/
theorem State.fetch_eq_readWord (hp : s.program = some m) (hlt : s.pc < m.len)
    (hok : s.pc % 4 = 0 ∧ s.pc + 3 ≤ m.len - 1) : s.fetch = some (m.readWord s.pc) := by
  obtain ⟨haligned, hbound⟩ := hok
  exact (State.fetch_of_program hp).trans (Memory.fetch_eq_some_iff.mpr ⟨haligned, by omega, rfl⟩)

/-! ### What a step that raises leaves (R147) -/

/-- A step that leaves a record raised it at the pc: Missing-Program and Bounds/Alignment where the pc stands, Decode and
Reserved-Register-Write with the fetched word after the advance. -/
theorem step_raises_cases (h : step s = .next t) (ht : t.fault = some record) :
    (s.program = none ∧ record = .missingProgram s.pc ∧ t = s.raise record) ∨
      (record = .boundsAlignment s.pc ∧ t = s.raise record) ∨
      (∃ w, s.fetch = some w ∧ (record = .decode s.pc w ∨ record = .reservedRegisterWrite s.pc w) ∧
        t = s.advancePc.raise record) := by
  have hf := fault_eq_none_of_step h
  cases step_next_cases h with
  | missingProgram _ hp =>
    subst t
    cases ht
    exact .inl ⟨hp, rfl, rfl⟩
  | badFetch =>
    subst t
    cases ht
    exact .inr (.inl ⟨rfl, rfl⟩)
  | unknown _ w hw =>
    subst t
    cases ht
    exact .inr (.inr ⟨w, hw, .inl rfl, rfl⟩)
  | reserved _ w i hw hd =>
    subst t
    rw [encode_of_decode hd] at ht ⊢
    cases ht
    exact .inr (.inr ⟨w, hw, .inr rfl, rfl⟩)
  | halted | write | discarded =>
    subst t
    simp [hf] at ht

/-- Whatever the kind, the step that raises changes no register and records the address of its own instruction. -/
theorem step_raises_frame (h : step s = .next t) (ht : t.fault = some record) :
    SameRegisters s t ∧ record.fpc = s.pc := by
  obtain ⟨-, rfl, rfl⟩ | ⟨rfl, rfl⟩ | ⟨w, -, rfl | rfl, rfl⟩ := step_raises_cases h ht
  all_goals exact ⟨fun _ => rfl, rfl⟩

/-! ### A fault is precise (R149) -/

/-- The pc is at `a` or beyond, and so is the address of a fault record. -/
def AtOrBeyond (a : Nat) (s : State) : Prop :=
  a ≤ s.pc ∧ ∀ record, s.fault = some record → a ≤ record.fpc

/-- No step goes back, and a fault is raised at the pc. -/
theorem AtOrBeyond.of_step {a : Nat} (hs : AtOrBeyond a s) (h : step s = .next t) : AtOrBeyond a t := by
  obtain ⟨hpc, -⟩ := hs
  refine ⟨?_, fun record ht => ?_⟩
  · obtain hstay | ⟨-, hadvance⟩ := step_pc_cases h <;> omega
  · obtain ⟨-, hfpc⟩ := step_raises_frame h ht
    exact hfpc ▸ hpc

/-- A run that ends with a fault at the pc it starts from changes no register: the first step raised that fault, since after one
that completes every fault lies beyond. -/
theorem runLoop_sameRegisters_of_fault_at_pc {fuel : Nat} (h : runLoop fuel s = .next t)
    (ht : t.fault = some record) (hfpc : record.fpc = s.pc) : SameRegisters s t := by
  cases fuel with
  | zero =>
    cases h
    exact fun _ => rfl
  | succ fuel =>
    by_cases hs : s.status = .running
    · obtain ⟨u, hu, hout⟩ := step_of_running_completesOrRaises hs
      rw [runLoop_of_running hs hu] at h
      obtain ⟨hf, hpc, -⟩ | ⟨hraised, hregs⟩ := hout
      · have hbeyond : AtOrBeyond (s.pc + 4) u := ⟨hpc.ge, by simp [hf]⟩
        obtain ⟨-, hrecord⟩ := runLoop_induction (fun _ _ => AtOrBeyond.of_step) fuel hbeyond h
        have hlater := hrecord record ht
        omega
      · have hover : u.status ≠ .running := by simp [State.status_eq_faulted_iff.mpr hraised]
        rw [runLoop_of_not_running hover] at h
        cases h
        exact hregs
    · rw [runLoop_of_not_running hs] at h
      cases h
      exact fun _ => rfl

end Sys2Proof.Machine

namespace Sys2Proof

open Machine

/-- Settles O50: the loop goes on behind the instructions, from the pc at which the fault is raised. -/
theorem faultsArePrecise : Obligations.FaultsArePrecise := by
  intro c is tail t record his hrun ht hfpc
  rw [run_create_imageOf c tail his] at hrun
  have hregs := runLoop_sameRegisters_of_fault_at_pc hrun ht hfpc
  exact ⟨_, execAll_eq_foldl is _, hregs⟩

/-- Settles O44: one branch for each check of the step; that a step without a program raises Missing-Program too is
notes/assumptions/9.md. -/
theorem faultsAreDetectedInStepOrder : Obligations.FaultsAreDetectedInStepOrder := by
  refine ⟨fun s m hf hp hlt => ?_, fun s hf hp => ⟨step_of_noProgram hf hp, run_of_noProgram hf hp⟩, by decide⟩
  have hs := State.status_eq_running_iff.mpr ⟨hf, m, hp, hlt⟩
  by_cases hok : s.pc % 4 = 0 ∧ s.pc + 3 ≤ m.len - 1
  · have hw := State.fetch_eq_readWord hp hlt hok
    rw [if_neg (not_not_intro hok)]
    cases hd : decode (m.readWord s.pc) with
    | unknown => exact ⟨_, step_of_unknown hs hw hd, rfl⟩
    | known i =>
      by_cases hi : i.rd = 0#5 ∧ s.config.x0WritePolicy = .fault
      · obtain ⟨hr, hpolicy⟩ := hi
        exact ⟨_, step_of_rd_zero hs hw hd hr hpolicy, (if_pos ⟨hr, hpolicy⟩).symm⟩
      · obtain ⟨t, ht, hnone⟩ := step_of_completing hs hw hd hi
        exact ⟨t, ht, hnone.trans (if_neg hi).symm⟩
  · rw [if_pos hok]
    exact ⟨_, step_of_misaligned_or_outOfBounds hf hp hlt hok, rfl⟩

/-- Settles O43: the row of each kind is the case of the step that raises it; a hart without a program is as created. -/
theorem faultLeavesStateOfTable : Obligations.FaultLeavesStateOfTable := by
  intro s t record hinv h _ ht
  obtain ⟨hregs, hfpc⟩ := step_raises_frame h ht
  refine ⟨hregs, hfpc, ?_⟩
  obtain ⟨hp, rfl, rfl⟩ | ⟨rfl, rfl⟩ | ⟨w, hw, rfl | rfl, rfl⟩ := step_raises_cases h ht
  · obtain ⟨hpc, hzero⟩ := hinv.noProgram hp
    exact ⟨hpc, hpc, rfl, hzero⟩
  · exact ⟨rfl, rfl⟩
  all_goals exact ⟨rfl, hw.symm⟩

/-- Settles O38: the write attempt to register 0 raises in the state with the pc advanced. -/
theorem registerZeroDestinationRaises : Obligations.RegisterZeroDestinationRaises := by
  refine ⟨fun s w i hs hw hd hr hp => ?_, by decide⟩
  exact ⟨_, step_of_rd_zero hs hw hd hr hp, s.advancePc.raise_raisesOnly _, raise_runIsOver s.advancePc _⟩

/-- Settles O41: the record makes the status Faulted, from which nothing runs. -/
theorem faultEntrySetsRecordAndIsTerminal : Obligations.FaultEntrySetsRecordAndIsTerminal := by
  intro s record
  obtain ⟨hstep, hrun⟩ := raise_runIsOver s record
  exact ⟨s.raise_raisesOnly record, State.status_of_fault (s.raise_fault record), hstep, hrun⟩

/-- Settles O39: without a program `run` raises at once; with the empty one the hart is Halted, since 0 is LEN. -/
theorem missingProgramRaisesOnRun : Obligations.MissingProgramRaisesOnRun := by
  intro c
  refine ⟨?_, ?_⟩
  · exact ⟨_, run_of_noProgram rfl rfl, (create c none).raise_raisesOnly _, raise_runIsOver _ _, rfl,
      State.fresh_regValue c none⟩
  · exact run_of_terminal (.inl (State.status_eq_halted_iff.mpr ⟨rfl, _, rfl, Nat.le_refl 0⟩))

end Sys2Proof
end

section
/-!
PROOFS, 70_reset_and_hazards.md. Which runs end Halted (R173): the words of the buffer from the pc on decide it, one step a word,
and a Runnable image is one whose every word completes.
-/

namespace Sys2Proof.Machine

variable {s t : State} {m : Memory} {c : Config}

@[simp] theorem create_config (c : Config) (image : Option (List Byte)) : (create c image).config = c := rfl

/-! ### The addresses at which an instruction completes (R173 (b), (c), (d)) -/

/-- A fetch at `a` answers the word of an instruction that is no faulting write to register 0. -/
def Memory.CompletesAt (m : Memory) (c : Config) (a : Nat) : Prop :=
  ∃ i, m.fetch a = some (encode i) ∧ (c.x0WritePolicy = .fault → i.rd ≠ 0#5)

/-- An instruction completes at every word's address from word `k` on, the address of an incomplete last word included. -/
def Memory.CompletesFrom (m : Memory) (c : Config) (k : Nat) : Prop :=
  ∀ j, k ≤ j → 4 * j < m.len → m.CompletesAt c (4 * j)

theorem Memory.completesAt_iff_of_fetch {a : Nat} {w : InstrWord} (hw : m.fetch a = some w) :
    m.CompletesAt c a ↔ ∃ i, decode w = .known i ∧ (c.x0WritePolicy = .fault → i.rd ≠ 0#5) := by
  simp only [CompletesAt, hw, Option.some_inj, decode_eq_known_iff, eq_comm]

theorem Memory.not_completesAt_of_fetch_none {a : Nat} (hw : m.fetch a = none) : ¬m.CompletesAt c a := by
  simp [CompletesAt, hw]

/-- The word at the front, and the words behind it. -/
theorem Memory.completesFrom_iff_of_lt {k : Nat} (h : 4 * k < m.len) :
    m.CompletesFrom c k ↔ m.CompletesAt c (4 * k) ∧ m.CompletesFrom c (k + 1) := by
  refine ⟨fun hall => ⟨hall k le_rfl h, fun j hj => hall j (Nat.le_of_succ_le hj)⟩, ?_⟩
  rintro ⟨hfront, hrest⟩ j hj hlt
  obtain rfl | hj := hj.eq_or_lt
  · exact hfront
  · exact hrest j hj hlt

/-- The word of an image at `4 * k` is what a fetch there answers, where all four bytes are in bounds (R33). -/
theorem Memory.fetch_ofBytes_eq_imageWord (bytes : List Byte) {k : Nat} (h : 4 * k + 3 < bytes.length) :
    (Memory.ofBytes bytes).fetch (4 * k) = some (imageWord bytes k) :=
  Memory.fetch_eq_some_iff.mpr ⟨by omega, h, Memory.readWord_ofBytes bytes (4 * k)⟩

/-- An image is Runnable exactly if an instruction completes at every word's address: an incomplete last word cannot be
fetched. -/
theorem runnable_iff_completesFrom (bytes : List Byte) :
    Runnable c bytes ↔ (Memory.ofBytes bytes).CompletesFrom c 0 := by
  constructor
  · rintro ⟨hlen, hwords⟩ k - hk
    rw [Memory.ofBytes_len] at hk
    rw [Memory.completesAt_iff_of_fetch (Memory.fetch_ofBytes_eq_imageWord bytes (by omega))]
    exact hwords k (by omega)
  · intro hall
    have hword : ∀ k, 4 * k < bytes.length → (Memory.ofBytes bytes).CompletesAt c (4 * k) :=
      fun k => hall k (Nat.zero_le k)
    refine ⟨?_, fun k hk => ?_⟩
    · by_contra hlen
      refine Memory.not_completesAt_of_fetch_none (Memory.fetch_eq_none_iff.mpr ?_)
        (hword (bytes.length / 4) (by omega))
      rw [Memory.ofBytes_len]
      omega
    · rw [← Memory.completesAt_iff_of_fetch (Memory.fetch_ofBytes_eq_imageWord bytes (by omega))]
      exact hword k (by omega)

/-! ### A step raises nothing exactly where an instruction completes (R148) -/

theorem step_fault_eq_none_iff (hs : s.status = .running) (hp : s.program = some m) (h : step s = .next t) :
    t.fault = none ↔ m.CompletesAt s.config s.pc := by
  have hf := fault_eq_none_of_step h
  have hfetch := State.fetch_of_program hp
  have hat {w : InstrWord} (hw : s.fetch = some w) :=
    Memory.completesAt_iff_of_fetch (c := s.config) (hfetch.symm.trans hw)
  cases step_next_cases h with
  | missingProgram _ hn => simp [hn] at hp
  | halted hh => simp [hs] at hh
  | badFetch _ hw =>
    subst t
    simp [Memory.not_completesAt_of_fetch_none (hfetch.symm.trans hw)]
  | unknown _ w hw hd =>
    subst t
    simp [hat hw, hd]
  | write _ w i hw hd hr =>
    subst t
    simp [hat hw, hd, hr, hf]
  | reserved _ w i hw hd hr hpolicy =>
    subst t
    simp [hat hw, hd, hr, hpolicy]
  | discarded _ w i hw hd hr hpolicy =>
    subst t
    simp [hat hw, hd, hpolicy, hf]

/-! ### How a run ends (R125, R173) -/

theorem State.pc_lt_of_running (hs : s.status = .running) (hp : s.program = some m) : s.pc < m.len := by
  obtain ⟨-, m', hp', hlt⟩ := State.exists_of_running hs
  cases hp.symm.trans hp'
  exact hlt

/-- A hart with a program and no fault record that is not Running is Halted, and no word is left at its pc or beyond. -/
theorem halted_iff_of_not_running {k : Nat} (hp : s.program = some m) (hf : s.fault = none) (hpc : s.pc = 4 * k)
    (hs : s.status ≠ .running) : s.status = .halted ↔ m.CompletesFrom s.config k := by
  have hle : m.len ≤ s.pc := Nat.le_of_not_lt fun hlt => hs (State.status_eq_running_iff.mpr ⟨hf, m, hp, hlt⟩)
  exact iff_of_true (State.status_eq_halted_iff.mpr ⟨hf, m, hp, hle⟩) fun j hj hlt => by omega

/-- A loop that ends, from word `k` without a fault record, ends Halted exactly if an instruction completes at every word's
address from there on. -/
theorem runLoop_halted_iff {fuel k : Nat} (hp : s.program = some m) (hf : s.fault = none) (hpc : s.pc = 4 * k)
    (h : runLoop fuel s = .next t) (ht : t.status ≠ .running) :
    t.status = .halted ↔ m.CompletesFrom s.config k := by
  induction fuel generalizing s k with
  | zero =>
    cases h
    exact halted_iff_of_not_running hp hf hpc ht
  | succ fuel ih =>
    by_cases hs : s.status = .running
    · obtain ⟨u, hu, hout⟩ := step_of_running_completesOrRaises hs
      rw [runLoop_of_running hs hu] at h
      have hlt : 4 * k < m.len := hpc ▸ State.pc_lt_of_running hs hp
      rw [Memory.completesFrom_iff_of_lt hlt, ← hpc, ← step_fault_eq_none_iff hs hp hu]
      obtain ⟨hfu, hpcu, -⟩ | ⟨hraised, -⟩ := hout
      · obtain ⟨hconfig, hprog⟩ := step_sameParameters hu
        rw [ih (k := k + 1) (hprog.trans hp) hfu (by omega) h, hconfig, and_iff_right hfu]
      · have hfaulted := State.status_eq_faulted_iff.mpr hraised
        rw [runLoop_of_not_running (by simp [hfaulted])] at h
        cases h
        simp [hfaulted, hraised]
    · rw [runLoop_of_not_running hs] at h
      cases h
      exact halted_iff_of_not_running hp hf hpc hs

/-- A run ends Halted or Faulted: Running is no end, and a hart without a program raises Missing-Program (R125, R144). -/
theorem run_halted_or_faulted (s : State) : ∃ t, run s = .next t ∧ (t.status = .halted ∨ t.status = .faulted) := by
  obtain ⟨t, h, hrunning, -⟩ := run_ends s
  refine ⟨t, h, ?_⟩
  cases ht : t.status with
  | running => exact absurd ht hrunning
  | halted => exact .inl rfl
  | faulted => exact .inr rfl
  | noProgram =>
    obtain ⟨hfault, hprog⟩ := State.status_eq_noProgram_iff.mp ht
    obtain ⟨-, hsame⟩ := run_sameParameters h
    have hp : s.program = none := hsame.symm.trans hprog
    cases hf : s.fault with
    | none =>
      rw [run_of_noProgram hf hp] at h
      cases h
      cases hfault
    | some record =>
      rw [run_of_terminal (.inr (State.status_of_fault hf))] at h
      cases h
      cases hf.symm.trans hfault

end Sys2Proof.Machine

namespace Sys2Proof

open Machine

/-- Settles O51: without an image the run raises Missing-Program; with one the loop goes through its words from address 0. -/
theorem runHaltsExactlyForRunnableImages : Obligations.RunHaltsExactlyForRunnableImages := by
  intro c image
  obtain ⟨t, hrun, hend⟩ := run_halted_or_faulted (create c image)
  refine ⟨t, hrun, ?_, hend.resolve_left⟩
  cases image with
  | none =>
    rw [run_of_noProgram rfl rfl] at hrun
    cases hrun
    simp [State.status_of_fault (State.raise_fault _ _)]
  | some bytes =>
    rw [run_eq_runLoop (create_program c (some bytes))] at hrun
    have hrunning : t.status ≠ .running := by obtain hs | hs := hend <;> simp [hs]
    rw [runLoop_halted_iff (k := 0) (create_program c (some bytes)) rfl rfl hrun hrunning]
    simp [runnable_iff_completesFrom]

end Sys2Proof
end

section
/-!
PROOFS, 10_state.md section 6. The model's reset state is one creation among all, and its first step is the first step of any hart
created without a program (R25, R170).
-/

namespace Sys2Proof.Machine

/-- Both are a fresh hart; the parameters are the recommended ones (notes/assumptions/2.md, 4.md), the program is absent
(notes/assumptions/3.md). -/
theorem State.reset_eq_create : State.reset = create ⟨.w32, .fault⟩ none := rfl

/-- Whatever its parameters, a hart created without a program raises Missing-Program at its entry point, address 0
(notes/assumptions/9.md). -/
theorem step_create_none (c : Config) :
    step (create c none) = .next ((create c none).raise (.missingProgram 0)) :=
  step_of_noProgram rfl (create_program c none)

end Sys2Proof.Machine

namespace Sys2Proof

open Machine

/-- Settles O2: the reset state is a creation without a program, and every such hart's first step raises Missing-Program. -/
theorem resetStateIsCreationWithoutProgram : Obligations.ResetStateIsCreationWithoutProgram := by
  refine ⟨State.reset_eq_create, ?_⟩
  rw [State.reset_eq_create]
  exact step_create_none _

end Sys2Proof
end
